-- ==== Sys2Proof/Word.lean ====
section
/-! DEFINITION. The word types of the core (00_scope.md R5, R8, R9). Every value is unsigned; `+` on `Word`
is the spec's `⊞`, addition modulo 2^32 with the overflow discarded (42_compressor.md R141). -/

namespace Sys2Proof

/-- A 32-bit unsigned word (R5, R8). -/
abbrev Word := BitVec 32

/-- An 8-bit byte (R9). -/
abbrev Byte := BitVec 8

/-- A message block: exactly 64 bytes (R5, R13, R23). -/
abbrev Block := Vector Byte 64

/-- The sixteen little-endian words `M[0..15]` of a block (R5, R23). -/
abbrev Words := Vector Word 16

/-- Four words `(A, B, C, D)`: the running state `H` (R20) and the working registers `W` (R21). -/
structure Quad where
  a : Word
  b : Word
  c : Word
  d : Word
deriving DecidableEq, Repr

end Sys2Proof
end

