-- ==== Sys2Proof/Syntax.lean ====
section
/-! DEFINITION. The instructions of the core: the four host commands of spec/opcode_table.json (30_encoding.md
R80, R81). No command has an immediate, register or address operand (R82). -/

namespace Sys2Proof

/-- The host commands, one constructor per row of the opcode table. -/
inductive Instr where
  /-- NOP, word 0x00000000 (44_commands.md R192). -/
  | nop
  /-- INIT, word 0x00000001 (R193). -/
  | init
  /-- ABSORB `n`, word 0x00000002 + 16 * (n - 1); `n` is the number of message bytes, 1 to 4 (R82, R194). -/
  | absorb (n : Nat)
  /-- FINAL, word 0x00000003 (R195). -/
  | final
deriving DecidableEq, Repr

end Sys2Proof
end

