-- ==== Sys2Proof/WellFormed.lean ====
section
/-! DEFINITION. Which instruction terms stand for a command the encoding can express. -/

namespace Sys2Proof

/-- ABSORB takes 1 to 4 bytes: "there is no encoding of zero bytes" (30_encoding.md R82). The other three
commands have no operand. -/
def Instr.wellFormed : Instr → Bool
  | .nop => true
  | .init => true
  | .absorb n => decide (1 ≤ n) && decide (n ≤ 4)
  | .final => true

/-- `i` is a command that some legal word encodes. -/
abbrev Instr.WellFormed (i : Instr) : Prop := i.wellFormed = true

end Sys2Proof
end

