-- ==== Sys2Proof/Decode.lean ====
section
/-! DEFINITION. The decoder and the encoder of command words (30_encoding.md R80-R85). The decoder is total on
words and rejects each illegal word by a name; what the core does with a rejected word (SetErr(1), R84, R196)
is in Machine/HostAgent.lean. -/

namespace Sys2Proof

/-- Why a word is illegal (R83, R84, R231). -/
inductive Reject where
  /-- RSV, bits 31:6, is not zero. -/
  | reservedBits
  /-- OP is one of the reserved opcodes 0x4 to 0xF. -/
  | reservedOpcode
  /-- NBM1, bits 5:4, is not zero on NOP, INIT or FINAL. -/
  | countBits
deriving DecidableEq, Repr

/-- Field OP, bits 3:0 (R80). -/
def opField (c : Word) : BitVec 4 := c.extractLsb' 0 4

/-- Field NBM1, bits 5:4 (R80). -/
def nbm1Field (c : Word) : BitVec 2 := c.extractLsb' 4 2

/-- Field RSV, bits 31:6 (R80). -/
def rsvField (c : Word) : BitVec 26 := c.extractLsb' 6 26

/-- A command whose NBM1 field must be 0 (R80). -/
def decodePlain (c : Word) (i : Instr) : Except Reject Instr :=
  if nbm1Field c = 0 then .ok i else .error .countBits

/-- The opcode map (R81) once RSV is known to be 0; the byte count of ABSORB is NBM1 + 1 (R82). -/
def decodeOp (c : Word) : Except Reject Instr :=
  if opField c = 0x0 then decodePlain c .nop
  else if opField c = 0x1 then decodePlain c .init
  else if opField c = 0x2 then .ok (.absorb ((nbm1Field c).toNat + 1))
  else if opField c = 0x3 then decodePlain c .final
  else .error .reservedOpcode

/-- The decoder of command words: one 32-bit format, no mode (R80, R85). -/
def decode (c : Word) : Except Reject Instr :=
  if rsvField c = 0 then decodeOp c else .error .reservedBits

/-- `Legal(c)` as R83 writes it. -/
def legal (c : Word) : Bool :=
  decide (c.extractLsb' 6 26 = 0) &&
    (decide (c.extractLsb' 0 4 = (0x2 : BitVec 4)) ||
      ((decide (c.extractLsb' 0 4 = (0x0 : BitVec 4)) || decide (c.extractLsb' 0 4 = (0x1 : BitVec 4)) ||
          decide (c.extractLsb' 0 4 = (0x3 : BitVec 4))) &&
        decide (c.extractLsb' 4 2 = (0 : BitVec 2))))

/-- The word of a command, from the table of R81. The table has no word for an ABSORB whose count is outside 1..4
(R82); the value there is no command's word and nothing uses it: the assembler rejects such a line (log entry 12). -/
def encode : Instr → Word
  | .nop => 0x00000000
  | .init => 0x00000001
  | .absorb n => BitVec.ofNat 32 (0x00000002 + 16 * (n - 1))
  | .final => 0x00000003

/-- The decoder on bits numbered as spec/opcode_table.json numbers them: a command is one 32-bit word and bit 0
is its least significant bit, so any bit from 32 on makes it no command word. -/
def decodeTableWord (nbits w : Nat) : Option Instr :=
  if w % 2 ^ nbits < 2 ^ 32 then
    match decode (BitVec.ofNat 32 (w % 2 ^ nbits)) with
    | .ok i => some i
    | .error _ => none
  else none

end Sys2Proof
end

