-- ==== Sys2Proof/Machine/Bytes.lean ====
section
/-! DEFINITION. Byte-order conversions: every order in the core is little-endian and none can be switched
(00_scope.md R10, 20_memory.md R61-R65). -/

namespace Sys2Proof.Machine

/-- `le32(b0, b1, b2, b3)`: four bytes to a word, `b0` least significant (R10). -/
def le32 (b0 b1 b2 b3 : Byte) : Word := b3 ++ b2 ++ b1 ++ b0

/-- Byte `j` of a word, byte 0 least significant (R10). -/
def wordByte (x : Word) (j : Nat) : Byte := x.extractLsb' (8 * j) 8

/-- `bytes32(w)`: a word to four bytes, least significant first (R10). -/
def bytes32 (x : Word) : List Byte := [wordByte x 0, wordByte x 1, wordByte x 2, wordByte x 3]

/-- Byte `j` of a 64-bit value, byte 0 least significant (R10). -/
def lenByte (v : BitVec 64) (j : Nat) : Byte := v.extractLsb' (8 * j) 8

/-- `le64bytes(v)`: a 64-bit value to eight bytes, least significant first (R10, R62). -/
def le64bytes (v : BitVec 64) : List Byte :=
  [lenByte v 0, lenByte v 1, lenByte v 2, lenByte v 3, lenByte v 4, lenByte v 5, lenByte v 6, lenByte v 7]

/-- `M[j] = le32(b[4j], b[4j+1], b[4j+2], b[4j+3])` (R23, R61). -/
def blockWord (b : Block) (j : Fin 16) : Word :=
  le32 b[4 * j.val] b[4 * j.val + 1] b[4 * j.val + 2] b[4 * j.val + 3]

/-- The sixteen words of a block (R61). -/
def blockWords (b : Block) : Words := Vector.ofFn (blockWord b)

end Sys2Proof.Machine
end

