-- ==== Sys2Proof/Machine/Rom.lean ====
section
/-! DEFINITION. The constants ROM: `S(i)` and `K(i)` for the round number `i` in 0..63 (40_constants.md R100-R105).
It is a constant of the configuration, not state (R34, R105). -/

namespace Sys2Proof.Machine

/-- The groups `T[q]` of R101. -/
def rotationGroup : Fin 4 → List Nat
  | 0 => [7, 12, 17, 22]
  | 1 => [5, 9, 14, 20]
  | 2 => [4, 11, 16, 23]
  | 3 => [6, 10, 15, 21]

/-- `S(i) = T[i / 16][i mod 4]` (R101). -/
def romS (i : Fin 64) : Nat := (rotationGroup ⟨i.val / 16, by omega⟩).getD (i.val % 4) 0

/-- `k[0..15]` (R103). -/
def romBand1 : List Word :=
  [0xd76aa478, 0xe8c7b756, 0x242070db, 0xc1bdceee, 0xf57c0faf, 0x4787c62a, 0xa8304613, 0xfd469501,
   0x698098d8, 0x8b44f7af, 0xffff5bb1, 0x895cd7be, 0x6b901122, 0xfd987193, 0xa679438e, 0x49b40821]

/-- `k[16..31]` (R103). -/
def romBand2 : List Word :=
  [0xf61e2562, 0xc040b340, 0x265e5a51, 0xe9b6c7aa, 0xd62f105d, 0x02441453, 0xd8a1e681, 0xe7d3fbc8,
   0x21e1cde6, 0xc33707d6, 0xf4d50d87, 0x455a14ed, 0xa9e3e905, 0xfcefa3f8, 0x676f02d9, 0x8d2a4c8a]

/-- `k[32..47]` (R103). -/
def romBand3 : List Word :=
  [0xfffa3942, 0x8771f681, 0x6d9d6122, 0xfde5380c, 0xa4beea44, 0x4bdecfa9, 0xf6bb4b60, 0xbebfbc70,
   0x289b7ec6, 0xeaa127fa, 0xd4ef3085, 0x04881d05, 0xd9d4d039, 0xe6db99e5, 0x1fa27cf8, 0xc4ac5665]

/-- `k[48..63]` (R103). -/
def romBand4 : List Word :=
  [0xf4292244, 0x432aff97, 0xab9423a7, 0xfc93a039, 0x655b59c3, 0x8f0ccc92, 0xffeff47d, 0x85845dd1,
   0x6fa87e4f, 0xfe2ce6e0, 0xa3014314, 0x4e0811a1, 0xf7537e82, 0xbd3af235, 0x2ad7d2bb, 0xeb86d391]

/-- `K(i) = k[i]` (R103). The default of `getD` is never taken: the table has 64 words and `i < 64`. -/
def romK (i : Fin 64) : Word := (romBand1 ++ romBand2 ++ romBand3 ++ romBand4).getD i.val 0

end Sys2Proof.Machine
end

