-- ==== Sys2Proof/Machine/Compress.lean ====
section
/-! DEFINITION. The block compressor at the operation level (42_compressor.md R140-R151). `+` on words is `⊞`. -/

namespace Sys2Proof.Machine

/-- `rotl(x, n) = ((x * 2^n) mod 2^32) + ⌊x / 2^(32-n)⌋`, for `n` in 1..31 (R140). -/
def rotl (x : Word) (n : Nat) : Word := BitVec.ofNat 32 (x.toNat * 2 ^ n % 2 ^ 32 + x.toNat / 2 ^ (32 - n))

/-- Band 1: `(B ∧ C) ∨ (¬B ∧ D)` (R142). -/
def mixF (b c d : Word) : Word := (b &&& c) ||| (~~~b &&& d)

/-- Band 2: `(B ∧ D) ∨ (C ∧ ¬D)` (R143). -/
def mixG (b c d : Word) : Word := (b &&& d) ||| (c &&& ~~~d)

/-- Band 3: `B ⊕ C ⊕ D` (R144). -/
def mixH (b c d : Word) : Word := b ^^^ c ^^^ d

/-- Band 4: `C ⊕ (B ∨ ¬D)` (R145). -/
def mixI (b c d : Word) : Word := c ^^^ (b ||| ~~~d)

/-- `Fn(i)`: the mixing function of the band of round `i` (R146). -/
def mixFn (i : Fin 64) (b c d : Word) : Word :=
  if i.val < 16 then mixF b c d
  else if i.val < 32 then mixG b c d
  else if i.val < 48 then mixH b c d
  else mixI b c d

/-- `g(i)`: the index of the message word that round `i` uses (R146, R147). -/
def msgIndex (i : Fin 64) : Fin 16 :=
  if i.val < 16 then Fin.ofNat 16 i.val
  else if i.val < 32 then Fin.ofNat 16 (5 * i.val + 1)
  else if i.val < 48 then Fin.ofNat 16 (3 * i.val + 5)
  else Fin.ofNat 16 (7 * i.val)

/-- `T`: the mixing value plus `A`, `K(i)` and `M[g(i)]` (R148; the rotate applies to this sum, 90 C5). -/
def roundSum (i : Fin 64) (q : Quad) (m : Words) : Word := mixFn i q.b q.c q.d + q.a + romK i + m[(msgIndex i).val]

/-- `Round(i, (A, B, C, D), M)`: the new `(A, B, C, D)` is `(D, B ⊞ rotl(T, S(i)), B, C)` (R148). -/
def md5Round (i : Fin 64) (q : Quad) (m : Words) : Quad :=
  ⟨q.d, q.b + rotl (roundSum i q m) (romS i), q.b, q.c⟩

/-- The working registers after the first `n` rounds, `n` in 0..64 (the loop of R149). -/
def md5Rounds (m : Words) (q : Quad) : Nat → Quad
  | 0 => q
  | n + 1 => md5Round (Fin.ofNat 64 n) (md5Rounds m q n) m

/-- `(a0 ⊞ A, b0 ⊞ B, c0 ⊞ C, d0 ⊞ D)` (R149, R200). -/
def addBack (h w : Quad) : Quad := ⟨h.a + w.a, h.b + w.b, h.c + w.c, h.d + w.d⟩

/-- `Compress(Hs, blk)` (R149). -/
def compress (hs : Quad) (blk : Block) : Quad := addBack hs (md5Rounds (blockWords blk) hs 64)

end Sys2Proof.Machine
end

