-- ==== Sys2Proof/Machine/Padding.lean ====
section
/-! DEFINITION. The padding stage at the operation level (41_padding.md R120-R126, R128). -/

namespace Sys2Proof.Machine

/-- The loop "while |p| mod 64 ≠ 56: p <- p ++ (0x00)" of R121, for at most `fuel` turns; 63 are enough (R122). -/
def zeroFill : (fuel : Nat) → List Byte → List Byte
  | 0, p => p
  | fuel + 1, p => if p.length % 64 = 56 then p else zeroFill fuel (p ++ [0x00])

/-- `(8 * L) mod 2^64` for a message of `L` bytes (R121, R123). -/
def bitLength (l : Nat) : BitVec 64 := BitVec.ofNat 64 (8 * l)

/-- `Pad(m)` (R121). -/
def pad (m : List Byte) : List Byte := zeroFill 63 (m ++ [0x80]) ++ le64bytes (bitLength m.length)

/-- `z(L) = (55 - L) mod 64`, with `mod` giving a non-negative result (R122). -/
def zeroCount (l : Nat) : Nat := (55 + 64 - l % 64) % 64

/-- `n(L) = ⌊(L + 8) / 64⌋ + 1` (R125). -/
def blockCount (l : Nat) : Nat := (l + 8) / 64 + 1

end Sys2Proof.Machine
end

