-- ==== Sys2Proof/Machine/Driver.lean ====
section
/-! DEFINITION. The digest driver at the operation level (43_driver.md R170-R174). -/

namespace Sys2Proof.Machine

/-- The initial running state (R170). -/
def iv : Quad := ⟨0x67452301, 0xefcdab89, 0x98badcfe, 0x10325476⟩

/-- The block `p[64t .. 64t+63]` (R171). -/
def blockAt (p : List Byte) (t : Nat) : Block := Vector.ofFn fun j => p.getD (64 * t + j.val) 0

/-- `Blocks(p)`: the `|p| / 64` whole blocks of `p`, in order (R171). A last part of less than 64 bytes is in no
block, so `Blocks` of any message gives its first `⌊|m|/64⌋` blocks (R211). -/
def blocks (p : List Byte) : List Block := (List.range (p.length / 64)).map (blockAt p)

/-- `Chain(Hs, blocks)` (R172). -/
def chain (hs : Quad) : List Block → Quad
  | [] => hs
  | blk :: rest => chain (compress hs blk) rest

/-- `Serialize(A, B, C, D)` (R173). -/
def serialize (q : Quad) : List Byte := bytes32 q.a ++ bytes32 q.b ++ bytes32 q.c ++ bytes32 q.d

/-- `MD5(m)` (R174). -/
def md5 (m : List Byte) : List Byte := serialize (chain iv (blocks (pad m)))

end Sys2Proof.Machine
end

