-- ==== Sys2Proof/Config.lean ====
section
/-! DEFINITION. What the spec leaves open: the three open parameters of 00_scope.md R6 and the free values of
93_implementation_defined.md U4. None of them has a body, so no proof can learn a value of it.
The constants ROM, which R34 and R105 make a constant of the configuration, stands in Machine/Rom.lean. -/

namespace Sys2Proof

/-- Byte-lane orders of a host bus (R6, 92_eei_decisions.md D28). -/
inductive ByteOrder where
  | little
  | big
deriving DecidableEq, Repr, Inhabited

/-- `MD5_BASE`, the base address of the register window (R6, R35, R69; log entry 3). -/
opaque Config.md5Base : Nat

/-- `N_INSTANCES`, the number of core instances of a system (R6, R239; log entry 3). -/
opaque Config.nInstances : Nat

/-- `BUS_BYTE_ORDER`, the byte-lane order of the host bus (R6, D28; log entry 3). -/
opaque Config.busByteOrder : ByteOrder

/-- FREE VALUE: STATUS.FILL as the host reads it while BUSY = 1 (R38, R45, D26, U4; log entry 2), one for each
number `unit` of an instance and each point `epoch` of its run, so two instances share no draw (R73, R239). Its
limit is the spec's: FILL is an integer in 0..64 (R24). -/
opaque Config.busyFill : (unit epoch : Nat) → Fin 65

/-- FREE VALUE: LEN_LO, LEN_HI and DIGEST0..3 as the host reads them while BUSY = 1 (R39, R40, D26, U4; log
entry 2), one for each number `unit` of an instance, each point `epoch` of its run and each window offset, so two
instances share no draw (R73, R239). -/
opaque Config.busyWord : (unit epoch offset : Nat) → Word

end Sys2Proof
end

