-- ==== Sys2Proof/Machine/State.lean ====
section
/-! DEFINITION. The state of the machine: the core's architectural state (10_state.md R20-R33, R44), the host
agent's program and what it has read (30_encoding.md R87), the scheduler's coming choices (44_commands.md R205)
and the counter at which free values are taken. Everything is plain data. -/

namespace Sys2Proof.Machine

/-- `PHASE` (R27). -/
inductive Phase where
  | idle
  | absorb
  | round
  | addback
  | fin1
  | fin2
deriving DecidableEq, Repr

/-- `RET`: the phase entered after the add-back (R28). -/
inductive Ret where
  | absorb
  | fin2
deriving DecidableEq, Repr

/-- `ECAUSE`, 2 bits, with the names of R32 and R231. -/
inductive Cause where
  /-- 0: no error. -/
  | none
  /-- 1: illegal command encoding. -/
  | illegalCommand
  /-- 2: ABSORB or FINAL while DONE = 1. -/
  | sequenceError
  /-- 3: reserved, never written (R32, U9). -/
  | reserved
deriving DecidableEq, Repr

/-- The state of one core (R20-R33); the constants ROM is no state (R34). -/
structure CoreState where
  /-- `HA, HB, HC, HD` (R20). -/
  h : Quad
  /-- `WA, WB, WC, WD` (R21). -/
  w : Quad
  /-- `RND`, 0..63 (R22). -/
  rnd : Fin 64
  /-- `BUF[0..63]` (R23). -/
  buf : Block
  /-- `FILL`, 0..64 (R24). -/
  fill : Fin 65
  /-- `LEN`, bits of message modulo 2^64 (R25). -/
  len : BitVec 64
  /-- `PEND`, 0 to 4 bytes, first byte first (R26). -/
  pend : List Byte
  /-- `PHASE` (R27). -/
  phase : Phase
  /-- `RET` (R28). -/
  ret : Ret
  /-- `LENDONE` (R29). -/
  lenDone : Bool
  /-- `DONE` (R30). -/
  done : Bool
  /-- `ERR` (R31). -/
  err : Bool
  /-- `ECAUSE` (R32). -/
  ecause : Cause
  /-- `DATA` (R33). -/
  data : Word
deriving DecidableEq, Repr

/-- The sixteen registers of the window, in the order of their offsets (R35); the reserved offsets are named by
their offset. -/
inductive Reg where
  | cmd
  | data
  | status
  | lenLo
  | lenHi
  | rsv14
  | rsv18
  | rsv1C
  | digest0
  | digest1
  | digest2
  | digest3
  | rsv30
  | rsv34
  | rsv38
  | rsv3C
deriving DecidableEq, Repr

/-- One access of the host bus: the address is `MD5_BASE + offset` (R35, R69; an address below the base has a
negative offset) and the width is in bytes. Only aligned 4-byte accesses inside the window are admitted (R66). -/
structure BusAccess where
  offset : Int
  bytes : Nat
deriving DecidableEq, Repr

/-- A line of the host's program with its labels resolved (R87). The names of `rd <reg> -> <name>` are numbers. -/
inductive HostOp where
  /-- `wr <reg>, <value>`. -/
  | wr (a : BusAccess) (v : Word)
  /-- `rd <reg> -> <name>`. -/
  | rd (a : BusAccess) (name : Nat)
  /-- `bnz <name> & <mask>, <label>`: go to line `target` if `name AND mask ≠ 0`. -/
  | bnz (name : Nat) (mask : Word) (target : Nat)
deriving DecidableEq, Repr

/-- One choice of the scheduler (R205): which agent is asked to step, or a reset of the instance (R250). -/
inductive Turn where
  | host
  | core
  | reset
deriving DecidableEq, Repr

/-- The machine: one core, its host and the scheduler's choices. -/
structure State where
  /-- The core (R20-R33). -/
  core : CoreState
  /-- The host's program (R42: it runs on the host; R87). -/
  program : List HostOp
  /-- The index of the host's next line: accesses take effect in program order (R71). -/
  hostPc : Nat
  /-- What the host has read, newest first, each value with its name (R87). -/
  reads : List (Nat × Word)
  /-- The scheduler's coming choices; with none left a busy core steps first, which is weakly fair (R205; log
  entry 4). -/
  turns : List Turn
  /-- The model's own counter: it numbers the points of the run between which no host write, core step or reset
  lies; the free values of busy reads are taken at it (U4; log entry 2). -/
  epoch : Nat
  /-- The model's own number of this instance in its system (R239): the free values of busy reads are taken for it, so
  that two instances share none (R73; log entry 2). No step changes it. -/
  unit : Nat
deriving DecidableEq, Repr

/-- Why the machine stops with a fault. -/
inductive Fault where
  /-- Raised by the FIN1 step when FILL = 64, where BUF[FILL] does not exist. R201: FIN1 is "entered only from
  FINAL, with FILL in 0..63", so no run reaches it. Safe: the model stops (log entry 7). -/
  | fin1WithFullBuffer
deriving DecidableEq, Repr

/-- Why a step has no meaning. -/
inductive Refusal where
  /-- Raised by `exec` alone, for an instruction that has no meaning yet. Safe. -/
  | notModelled (mnemonic : String)
  /-- Raised by a host access that is not 4 bytes wide (R66, U5). Safe. -/
  | accessWidth
  /-- Raised by a host access outside the window 0x00..0x3F (R66, U5). Safe. -/
  | accessOutsideWindow
  /-- Raised by a host access whose offset is not a multiple of 4 (R66, U5). Safe. -/
  | accessMisaligned
  /-- Raised by a host branch on a name that no `rd` of the host has set; R87 gives such a name no value. Safe
  (log entry 6). -/
  | hostNameNeverRead
deriving DecidableEq, Repr

/-- The core right after reset (R44). `w`, `rnd`, `ret`, `lenDone` and `buf` are "unspecified" there: their zeros
are DESIGN CHOICES (log entry 1). -/
def CoreState.reset : CoreState where
  h := ⟨0x67452301, 0xefcdab89, 0x98badcfe, 0x10325476⟩
  w := ⟨0, 0, 0, 0⟩
  rnd := 0
  buf := Vector.replicate 64 0
  fill := 0
  len := 0
  pend := []
  phase := .idle
  ret := .absorb
  lenDone := false
  done := false
  err := false
  ecause := .none
  data := 0

/-- The machine right after reset with no host program placed (R44, R250, R252; log entries 1, 2, 4
and 5). -/
def State.reset : State where
  core := CoreState.reset
  program := []
  hostPc := 0
  reads := []
  turns := []
  epoch := 0
  unit := 0

end Sys2Proof.Machine
end

