-- ==== Sys2Proof/Machine/Flags.lean ====
section
/-! DEFINITION. The status bits (10_state.md R30-R32, R38, R43). The core has no condition codes. -/

namespace Sys2Proof.Machine

/-- STATUS.BUSY is 1 when `PHASE ≠ IDLE` (R27, R38). -/
def CoreState.busy (c : CoreState) : Bool := decide (c.phase ≠ .idle)

/-- The 2-bit code of an error cause (R32, R231). -/
def Cause.code : Cause → BitVec 2
  | .none => 0
  | .illegalCommand => 1
  | .sequenceError => 2
  | .reserved => 3

/-- `{0[16:0], FILL[6:0], 0[1:0], ECAUSE[1:0], 0, ERR, DONE, BUSY}` (R38), with the FILL field given. -/
def statusWord (c : CoreState) (fill : Fin 65) : Word :=
  (0 : BitVec 17) ++ BitVec.ofNat 7 fill.val ++ (0 : BitVec 2) ++ c.ecause.code ++ (0 : BitVec 1) ++
    BitVec.ofBool c.err ++ BitVec.ofBool c.done ++ BitVec.ofBool c.busy

end Sys2Proof.Machine
end

