-- ==== Sys2Proof/Machine/Ops.lean ====
section
/-! DEFINITION. The named operations that the commands and the core's steps share. The core has no trap entry and
no trap return (60_exceptions.md R235, R236): `setErr` is its whole error report (44_commands.md R191), and an
error state ends by INIT or reset alone. -/

namespace Sys2Proof.Machine

/-- The next state of an outcome, if it has one. -/
def nextOf {σ φ ρ : Type} : Host.Outcome σ φ ρ → Option σ
  | .next s => some s
  | .fault _ => none
  | .refused _ => none

/-- An outcome with its next state mapped; faults and refusals pass through. -/
def mapNext {σ τ φ ρ : Type} (f : σ → τ) : Host.Outcome σ φ ρ → Host.Outcome τ φ ρ
  | .next s => .next (f s)
  | .fault x => .fault x
  | .refused x => .refused x

/-- The machine with its core replaced. -/
def State.withCore (s : State) (c : CoreState) : State := { s with core := c }

/-- `SetErr(code)`: ECAUSE keeps the first cause, ERR is sticky (R191). -/
def CoreState.setErr (code : Cause) (c : CoreState) : CoreState :=
  { c with ecause := if c.err then c.ecause else code, err := true }

/-- The assignments of INIT (R193). -/
def CoreState.initDigest (c : CoreState) : CoreState :=
  { c with h := iv, len := 0, fill := 0, pend := [], done := false, err := false, ecause := .none }

/-- `StartCompress(r)` (R203). -/
def CoreState.startCompress (r : Ret) (c : CoreState) : CoreState :=
  { c with w := c.h, rnd := 0, ret := r, phase := .round }

/-- The phase that RET names (R28, R200). -/
def Ret.phase : Ret → Phase
  | .absorb => .absorb
  | .fin2 => .fin2

/-- Placing the byte `b` at `BUF[FILL]` with `rest` left in PEND; LEN counts 8 bits modulo 2^64 (R198, R25). -/
def CoreState.placeByte (c : CoreState) (hf : c.fill.val < 64) (b : Byte) (rest : List Byte) : CoreState :=
  { c with
    buf := c.buf.set c.fill.val b hf
    fill := ⟨c.fill.val + 1, by omega⟩
    len := c.len + 8
    pend := rest }

/-- `BUF[j] <- 0x00` for `j` in `lo .. hi - 1` (R201, R202). -/
def zeroRange (buf : Block) (lo hi : Nat) : Block :=
  Vector.ofFn fun j => if lo ≤ j.val ∧ j.val < hi then 0x00 else buf[j]

/-- `BUF[56..63] <- le64bytes(LEN)` (R201, R202). -/
def putLength (buf : Block) (len : BitVec 64) : Block :=
  Vector.ofFn fun j => if 56 ≤ j.val then lenByte len (j.val - 56) else buf[j]

/-- The marker and the zeros that FIN1 places: `BUF[FILL] <- 0x80`, `BUF[FILL+1 .. 63] <- 0x00` (R201). -/
def markerBlock (buf : Block) (fill : Nat) (hf : fill < 64) : Block := zeroRange (buf.set fill 0x80 hf) (fill + 1) 64

/-- The block that FIN2 forms when a length block must follow: 56 zeros, then the length (R202). -/
def lengthBlock (buf : Block) (len : BitVec 64) : Block := putLength (zeroRange buf 0 56) len

end Sys2Proof.Machine
end

