-- ==== Sys2Proof/Machine/CoreStep.lean ====
section
/-! DEFINITION. The core's own steps, one per phase (44_commands.md R197-R203). -/

namespace Sys2Proof.Machine

/-- The step in phase ABSORB (R198). -/
def stepAbsorb (c : CoreState) : CoreState :=
  if hf : c.fill.val < 64 then
    match c.pend with
    | b :: rest => c.placeByte hf b rest
    | [] => { c with phase := .idle }
  else c.startCompress .absorb

/-- The step in phase ROUND (R199). -/
def stepRound (c : CoreState) : CoreState :=
  let w' := md5Round c.rnd c.w (blockWords c.buf)
  if c.rnd = 63 then { c with w := w', phase := .addback } else { c with w := w', rnd := c.rnd + 1 }

/-- The step in phase ADDBACK (R200). -/
def stepAddback (c : CoreState) : CoreState :=
  { c with h := addBack c.h c.w, fill := 0, phase := c.ret.phase }

/-- The buffer that FIN1 leaves: the marker and zeros, and with FILL ≤ 55 the length over the last eight (R201). -/
def fin1Block (buf : Block) (fill : Nat) (hf : fill < 64) (len : BitVec 64) : Block :=
  if fill ≤ 55 then putLength (markerBlock buf fill hf) len else markerBlock buf fill hf

/-- The assignments of FIN1 before the compression starts (R201). -/
def CoreState.fin1Place (c : CoreState) (hf : c.fill.val < 64) : CoreState :=
  { c with
    buf := fin1Block c.buf c.fill.val hf c.len
    lenDone := decide (c.fill.val ≤ 55)
    fill := 64 }

/-- The step in phase FIN1, "entered only from FINAL, with FILL in 0..63" (R201); log entry 7. -/
def stepFin1 (c : CoreState) : Host.Outcome CoreState Fault Refusal :=
  if hf : c.fill.val < 64 then .next ((c.fin1Place hf).startCompress .fin2) else .fault .fin1WithFullBuffer

/-- The step in phase FIN2 (R202). -/
def stepFin2 (c : CoreState) : CoreState :=
  if c.lenDone then { c with done := true, phase := .idle }
  else
    CoreState.startCompress .fin2
      { c with buf := lengthBlock c.buf c.len, lenDone := true, fill := 64 }

/-- `Step(PHASE)`; with `PHASE = IDLE` the core has no step and its state stays (R197). -/
def coreStep (c : CoreState) : Host.Outcome CoreState Fault Refusal :=
  match c.phase with
  | .idle => .next c
  | .absorb => .next (stepAbsorb c)
  | .round => .next (stepRound c)
  | .addback => .next (stepAddback c)
  | .fin1 => stepFin1 c
  | .fin2 => .next (stepFin2 c)

end Sys2Proof.Machine
end

