-- ==== Sys2Proof/Machine/Operands.lean ====
section
/-! DEFINITION. The one operand form of the commands: the bytes that ABSORB takes from DATA (20_memory.md R64,
30_encoding.md R82). -/

namespace Sys2Proof.Machine

/-- The first `n` bytes of DATA, least significant first: `(DATA[7:0], .., DATA[8n-1 : 8n-8])` (R64, R194). The
bytes above the first `n` are ignored. -/
def dataBytes (data : Word) (n : Nat) : List Byte := (bytes32 data).take n

end Sys2Proof.Machine
end

