-- ==== Sys2Proof/Machine/Commands.lean ====
section
/-! DEFINITION. The meanings of the four host commands at acceptance (44_commands.md R192-R196), one definition
each. They are the legal arms of `Accept` (R196); the handshake that lets a command be accepted only with
`PHASE = IDLE` (R190) and the illegal words are in Machine/HostAgent.lean. -/

namespace Sys2Proof.Machine

/-- A command that R196 allows only while `DONE = 0`; with `DONE = 1` it does `SetErr(2)` and nothing else. -/
def unlessDone (act : CoreState → CoreState) (s : State) : Host.Outcome State Fault Refusal :=
  .next (s.withCore (if s.core.done then s.core.setErr .sequenceError else act s.core))

/-- NOP: no state changes (R192). -/
def execNop (s : State) : Host.Outcome State Fault Refusal := .next s

/-- INIT: starts a new digest computation (R193). -/
def execInit (s : State) : Host.Outcome State Fault Refusal := .next (s.withCore s.core.initDigest)

/-- ABSORB `n`: takes `n` message bytes from DATA into PEND (R194). -/
def execAbsorb (n : Nat) (s : State) : Host.Outcome State Fault Refusal :=
  unlessDone (fun c => { c with pend := dataBytes c.data n, phase := .absorb }) s

/-- FINAL: starts the finalization (R195). -/
def execFinal (s : State) : Host.Outcome State Fault Refusal :=
  unlessDone (fun c => { c with phase := .fin1 }) s

end Sys2Proof.Machine
end

