-- ==== Sys2Proof/Machine/Registers.lean ====
section
/-! DEFINITION. The register window: the map, the reads and the writes that are no command (10_state.md R35-R41,
20_memory.md R66, 44_commands.md R207, R208). -/

namespace Sys2Proof.Machine

/-- The register at a window offset (R35). -/
def Reg.ofOffset : Nat → Option Reg
  | 0x00 => some .cmd
  | 0x04 => some .data
  | 0x08 => some .status
  | 0x0C => some .lenLo
  | 0x10 => some .lenHi
  | 0x14 => some .rsv14
  | 0x18 => some .rsv18
  | 0x1C => some .rsv1C
  | 0x20 => some .digest0
  | 0x24 => some .digest1
  | 0x28 => some .digest2
  | 0x2C => some .digest3
  | 0x30 => some .rsv30
  | 0x34 => some .rsv34
  | 0x38 => some .rsv38
  | 0x3C => some .rsv3C
  | _ => none

/-- The offset of a register (R35). -/
def Reg.offset : Reg → Nat
  | .cmd => 0x00
  | .data => 0x04
  | .status => 0x08
  | .lenLo => 0x0C
  | .lenHi => 0x10
  | .rsv14 => 0x14
  | .rsv18 => 0x18
  | .rsv1C => 0x1C
  | .digest0 => 0x20
  | .digest1 => 0x24
  | .digest2 => 0x28
  | .digest3 => 0x2C
  | .rsv30 => 0x30
  | .rsv34 => 0x34
  | .rsv38 => 0x38
  | .rsv3C => 0x3C

/-- The aligned 4-byte access to a register. -/
def BusAccess.ofReg (r : Reg) : BusAccess := ⟨r.offset, 4⟩

/-- The access at an absolute address, for a window at `base` (R35, R69). -/
def BusAccess.ofAddress (base address bytes : Nat) : BusAccess := ⟨(address : Int) - base, bytes⟩

/-- The register an access reaches, or why it is refused: only aligned 32-bit accesses inside the window are
admitted (R66, U5). -/
def BusAccess.register (a : BusAccess) : Except Refusal Reg :=
  if a.bytes ≠ 4 then .error .accessWidth
  else if a.offset < 0 ∨ 0x40 ≤ a.offset then .error .accessOutsideWindow
  else
    match Reg.ofOffset a.offset.toNat with
    | some r => .ok r
    | none => .error .accessMisaligned

/-- A value that is fixed only while BUSY = 0: while busy the host reads a free value of this instance (R38-R40, R45,
R73, D26, U4; log entry 2). -/
def settledWord (s : State) (r : Reg) (v : Word) : Word :=
  if s.core.busy then Config.busyWord s.unit s.epoch r.offset else v

/-- STATUS.FILL as the host reads it: a free value of this instance in 0..64 while busy (R38, R45, R73, U4; log
entry 2). -/
def settledFill (s : State) : Fin 65 := if s.core.busy then Config.busyFill s.unit s.epoch else s.core.fill

/-- `RegRead`: what the host reads from a register; no read changes anything (R36-R41, R68, R207). -/
def regRead (r : Reg) (s : State) : Word :=
  match r with
  | .cmd => 0
  | .data => s.core.data
  | .status => statusWord s.core (settledFill s)
  | .lenLo => settledWord s .lenLo (s.core.len.extractLsb' 0 32)
  | .lenHi => settledWord s .lenHi (s.core.len.extractLsb' 32 32)
  | .digest0 => settledWord s .digest0 s.core.h.a
  | .digest1 => settledWord s .digest1 s.core.h.b
  | .digest2 => settledWord s .digest2 s.core.h.c
  | .digest3 => settledWord s .digest3 s.core.h.d
  | .rsv14 => 0
  | .rsv18 => 0
  | .rsv1C => 0
  | .rsv30 => 0
  | .rsv34 => 0
  | .rsv38 => 0
  | .rsv3C => 0

/-- `RegWrite` to any register but CMD: DATA takes the value, busy or idle (R37, R208); writes to read-only and
reserved registers have no effect (R41). -/
def plainWrite (r : Reg) (v : Word) (c : CoreState) : CoreState :=
  match r with
  | .data => { c with data := v }
  | .cmd => c
  | .status => c
  | .lenLo => c
  | .lenHi => c
  | .digest0 => c
  | .digest1 => c
  | .digest2 => c
  | .digest3 => c
  | .rsv14 => c
  | .rsv18 => c
  | .rsv1C => c
  | .rsv30 => c
  | .rsv34 => c
  | .rsv38 => c
  | .rsv3C => c

end Sys2Proof.Machine
end

