-- ==== Sys2Proof/Machine/HostAgent.lean ====
section
/-! DEFINITION. The agents' moves: accepting a command, the host's accesses, the core's step, reset, and which of
them the scheduler's choice enables (20_memory.md R67, R71; 44_commands.md R190, R196, R205-R208;
70_reset_and_hazards.md R250, R251). -/

namespace Sys2Proof.Machine

/-- `Accept(c)` (R196): an illegal word does `SetErr(1)` and nothing else (R84); a legal one runs. -/
def accept (c : Word) (s : State) : Host.Outcome State Fault Refusal :=
  match decode c with
  | .ok i => exec i s
  | .error _ => .next (s.withCore (s.core.setErr .illegalCommand))

/-- The host goes on to its next line. -/
def State.hostNext (s : State) : State := { s with hostPc := s.hostPc + 1 }

/-- The point of the run moves on (log entry 2). -/
def State.tick (s : State) : State := { s with epoch := s.epoch + 1 }

/-- A write to a register (R190, R208, R41). -/
def regWrite (r : Reg) (v : Word) (s : State) : Host.Outcome State Fault Refusal :=
  match r with
  | .cmd => accept v s
  | _ => .next (s.withCore (plainWrite r v s.core))

/-- The value of a name on the host: its latest `rd` (R87). -/
def State.nameValue (s : State) (name : Nat) : Option Word := s.reads.lookup name

/-- One line of the host's program (R87). -/
def hostStep (op : HostOp) (s : State) : Host.Outcome State Fault Refusal :=
  match op with
  | .wr a v =>
    match a.register with
    | .ok r => regWrite r v s.hostNext.tick
    | .error e => .refused e
  | .rd a name =>
    match a.register with
    | .ok r => .next { s.hostNext with reads := (name, regRead r s) :: s.reads }
    | .error e => .refused e
  | .bnz name mask target =>
    match s.nameValue name with
    | some v => .next (if v &&& mask ≠ 0 then { s with hostPc := target } else s.hostNext)
    | none => .refused .hostNameNeverRead

/-- The command word that a line presents to the core, if it is an admitted CMD write (R36). -/
def HostOp.commandWord (op : HostOp) : Option Word :=
  match op with
  | .wr a v =>
    match a.register with
    | .ok .cmd => some v
    | _ => none
  | .rd _ _ => none
  | .bnz _ _ _ => none

/-- A CMD write is held while the core is busy: the host has no step (R190, U12). -/
def HostOp.held (op : HostOp) (c : CoreState) : Bool := op.commandWord.isSome && c.busy

/-- The host's next line (R71: in program order). -/
def State.hostLine (s : State) : Option HostOp := s.program[s.hostPc]?

/-- The host's step, if it has one: none past the end of its program or while its CMD write is held. -/
def State.hostMove (s : State) : Option HostOp :=
  match s.hostLine with
  | some op => if op.held s.core then none else some op
  | none => none

/-- Reset of the instance: every state element of the core takes its reset value; the host's program, a held CMD
write included, is no core state (R250, R251). -/
def applyReset (s : State) : State := (s.withCore CoreState.reset).tick

/-- The core's step inside the machine (R197). -/
def coreMove (s : State) : Host.Outcome State Fault Refusal := mapNext (fun c => (s.withCore c).tick) (coreStep s.core)

/-- The agent that steps next when the scheduler asks for the host: the host if it has a step, else the core if it
is busy, else nobody. -/
def hostFirst (s : State) : Option Turn :=
  match s.hostMove with
  | some _ => some .host
  | none => if s.core.busy then some .core else none

/-- The agent that steps next when the scheduler asks for the core (R197: it has a step exactly while busy). -/
def coreFirst (s : State) : Option Turn :=
  if s.core.busy then some .core
  else
    match s.hostMove with
    | some _ => some .host
    | none => none

/-- Whose step is next: the scheduler's choice among the enabled ones (R205); with no choices left a busy core goes
first, so that the run is weakly fair to it (log entry 4). `none`: no agent has a step (R242). -/
def nextAgent (s : State) : Option Turn :=
  match s.turns with
  | .reset :: _ => some .reset
  | .host :: _ => hostFirst s
  | .core :: _ => coreFirst s
  | [] => coreFirst s

/-- The scheduler's choice is used up. -/
def State.popTurn (s : State) : State := { s with turns := s.turns.tail }

/-- The host's step; past the end of its program it has none and nothing changes. -/
def hostMoveStep (s : State) : Host.Outcome State Fault Refusal :=
  match s.hostLine with
  | some op => hostStep op s
  | none => .next s

/-- The step of the agent whose turn it is. -/
def agentStep (who : Option Turn) (s : State) : Host.Outcome State Fault Refusal :=
  match who with
  | some .reset => .next (applyReset s)
  | some .core => coreMove s
  | some .host => hostMoveStep s
  | none => .next s

/-- The host's program with `op` as its next line; the lines before and after it stay. -/
def State.placeHostLine (s : State) (op : HostOp) : State :=
  { s with
    program := s.program.take s.hostPc ++ op :: s.program.drop (s.hostPc + 1)
    hostPc := (s.program.take s.hostPc).length }

end Sys2Proof.Machine
end

