-- ==== Sys2Proof/Machine/Step.lean ====
section
/-! DEFINITION. One step of the machine: the step of the agent whose turn it is (44_commands.md R205, R206). -/

namespace Sys2Proof.Machine

/-- One step of the machine. -/
def step (s : State) : Host.Outcome State Fault Refusal := agentStep (nextAgent s) s.popTurn

/-- The machine with the command word `w` (its low `nbits` bits, up to one 32-bit word) as the host's next line,
the host's turn next, and the core IDLE so that a CMD write has its step (R190; log entry 5). -/
def State.withFetchWord (s : State) (nbits w : Nat) : State :=
  let s' := s.placeHostLine (.wr (BusAccess.ofReg .cmd) (BitVec.ofNat 32 (w % 2 ^ nbits)))
  { s' with core := { s'.core with phase := .idle }, turns := .host :: s'.turns }

end Sys2Proof.Machine
end

