-- ==== Sys2Proof/Machine/Asm.lean ====
section
/-! DEFINITION. The assembler syntax of host programs and its pseudo-instructions (30_encoding.md R87, R88), and the
assembler that resolves labels. Names and the labels that a program writes are numbers (log entry 6). What R87 and R88
give no meaning, the assembler rejects (log entry 12). -/

namespace Sys2Proof.Machine

/-- A label: one that the program writes, or the `w` of a WAITIDLE (R88). R88 is silent on the scope of `w`: here each
WAITIDLE has a `w` of its own, told apart by the number of its line in the program (DESIGN CHOICE, log entry 12). -/
inductive Label where
  | named (l : Nat)
  | waitIdle (line : Nat)
deriving DecidableEq, Repr

/-- One line of a host program (R87, R88). -/
inductive AsmLine where
  /-- `wr <reg>, <value>`. -/
  | wr (r : Reg) (v : Word)
  /-- `rd <reg> -> <name>`. -/
  | rd (r : Reg) (name : Nat)
  /-- `NOP`, `INIT`, `FINAL`, `ABSORB <n>`. -/
  | command (i : Instr)
  /-- `CMD <word>`. -/
  | cmd (w : Word)
  /-- `<label>:`. -/
  | label (l : Label)
  /-- `bnz <name> & <mask>, <label>`. -/
  | bnz (name : Nat) (mask : Word) (l : Label)
  /-- `; text`. -/
  | comment (text : String)
  /-- `ABSORB.<n> <value>`. -/
  | absorbValue (n : Nat) (v : Word)
  /-- `WAITIDLE`, with the name it reads STATUS into. -/
  | waitIdle (t : Nat)
  /-- `READDIGEST -> d0,d1,d2,d3`. -/
  | readDigest (d0 d1 d2 d3 : Nat)
  /-- `HASH <bytes>`, with the names of its WAITIDLE and READDIGEST. -/
  | hash (bytes : List Byte) (t d0 d1 d2 d3 : Nat)
deriving DecidableEq, Repr

/-- Successive groups of up to 4 bytes (R88). -/
def groups4 : List Byte → List (List Byte)
  | b0 :: b1 :: b2 :: b3 :: rest => [b0, b1, b2, b3] :: groups4 rest
  | [] => []
  | short => [short]

/-- `le32(b0, .., b(n-1), 0, ..)` (R88). -/
def groupWord (g : List Byte) : Word := le32 (g.getD 0 0) (g.getD 1 0) (g.getD 2 0) (g.getD 3 0)

/-- `ABSORB.<n> <value>`: `wr DATA, <value>` then `ABSORB <n>` (R88). -/
def absorbValueLines (n : Nat) (v : Word) : List AsmLine := [.wr .data v, .command (.absorb n)]

/-- `WAITIDLE` on line `k` of the program: `w: rd STATUS -> t` then `bnz t & 0x1, w`, with a `w` of its own (R88; log
entry 12). -/
def waitIdleLines (k t : Nat) : List AsmLine := [.label (.waitIdle k), .rd .status t, .bnz t 0x1 (.waitIdle k)]

/-- `READDIGEST` (R88). -/
def readDigestLines (d0 d1 d2 d3 : Nat) : List AsmLine :=
  [.rd .digest0 d0, .rd .digest1 d1, .rd .digest2 d2, .rd .digest3 d3]

/-- `HASH <bytes>` on line `k` of the program (R88). -/
def hashLines (k : Nat) (bytes : List Byte) (t d0 d1 d2 d3 : Nat) : List AsmLine :=
  [.command .init] ++ (groups4 bytes).flatMap (fun g => absorbValueLines g.length (groupWord g)) ++
    [.command .final] ++ waitIdleLines k t ++ readDigestLines d0 d1 d2 d3

/-- Line `k` of the program with its pseudo-instruction expanded (R88). -/
def AsmLine.expand (k : Nat) : AsmLine → List AsmLine
  | .absorbValue n v => absorbValueLines n v
  | .waitIdle t => waitIdleLines k t
  | .readDigest d0 d1 d2 d3 => readDigestLines d0 d1 d2 d3
  | .hash bytes t d0 d1 d2 d3 => hashLines k bytes t d0 d1 d2 d3
  | .wr r v => [.wr r v]
  | .rd r name => [.rd r name]
  | .command i => [.command i]
  | .cmd w => [.cmd w]
  | .label l => [.label l]
  | .bnz name mask l => [.bnz name mask l]
  | .comment text => [.comment text]

/-- The lines of a program from line `k` on, expanded. -/
def expandFrom : (k : Nat) → List AsmLine → List AsmLine
  | _, [] => []
  | k, line :: rest => line.expand k ++ expandFrom (k + 1) rest

/-- An expanded line as host operations, with the places of the labels known: a label and a comment are none. `none`:
the line has no meaning in R87, being a branch to a label that no line has, or an `ABSORB <n>` with n outside 1..4 (log
entry 12). A pseudo-instruction is expanded before. -/
def AsmLine.emit (table : List (Label × Nat)) : AsmLine → Option (List HostOp)
  | .wr r v => some [.wr (BusAccess.ofReg r) v]
  | .rd r name => some [.rd (BusAccess.ofReg r) name]
  | .command i => if i.wellFormed then some [.wr (BusAccess.ofReg .cmd) (encode i)] else none
  | .cmd w => some [.wr (BusAccess.ofReg .cmd) w]
  | .label _ => some []
  | .bnz name mask l => (table.lookup l).map fun target => [.bnz name mask target]
  | .comment _ => some []
  | .absorbValue _ _ => none
  | .waitIdle _ => none
  | .readDigest _ _ _ _ => none
  | .hash _ _ _ _ _ _ => none

/-- How many host operations an expanded line becomes (R87: one access or branch a line). -/
def AsmLine.size : AsmLine → Nat
  | .wr _ _ => 1
  | .rd _ _ => 1
  | .command _ => 1
  | .cmd _ => 1
  | .label _ => 0
  | .bnz _ _ _ => 1
  | .comment _ => 0
  | .absorbValue _ _ => 0
  | .waitIdle _ => 0
  | .readDigest _ _ _ _ => 0
  | .hash _ _ _ _ _ _ => 0

/-- Where the labels stand: each label with the index of the next operation. -/
def labelTable : (pos : Nat) → List AsmLine → List (Label × Nat)
  | _, [] => []
  | pos, .label l :: rest => (l, pos) :: labelTable pos rest
  | pos, line :: rest => labelTable (pos + line.size) rest

/-- The host program of a list of lines. `none`: R87 and R88 give the lines no meaning, because a label stands on two
lines, a branch names a label that no line has, or an ABSORB has a count outside 1..4 (DESIGN CHOICE, log entry 12). -/
def assemble (lines : List AsmLine) : Option (List HostOp) :=
  let flat := expandFrom 0 lines
  let table := labelTable 0 flat
  if (table.map Prod.fst).Nodup then (flat.mapM (AsmLine.emit table)).map List.flatten else none

end Sys2Proof.Machine
end

