-- ==== Sys2Proof/Machine/Bus.lean ====
section
/-! DEFINITION. The host bus in front of the window: absolute addresses (`MD5_BASE`, R6, R69) and byte lanes
(`BUS_BYTE_ORDER`, R6, D28). Registers are words, and only whole 32-bit accesses are admitted (R66), so no rule
depends on either parameter (U6, U7). -/

namespace Sys2Proof.Machine

/-- The bytes of a word on the lanes of a bus, lowest address first. -/
def lanesOf : ByteOrder → Word → List Byte
  | .little, x => bytes32 x
  | .big, x => (bytes32 x).reverse

/-- The word that four lanes carry, lowest address first. Other counts of lanes are no admitted access (R66); their
value is never used. -/
def wordOfLanes : ByteOrder → List Byte → Word
  | .little, [b0, b1, b2, b3] => le32 b0 b1 b2 b3
  | .big, [b0, b1, b2, b3] => le32 b3 b2 b1 b0
  | _, _ => 0

/-- A bus write of the given lanes at an absolute address. -/
def busWrite (address : Nat) (lanes : List Byte) : HostOp :=
  .wr (BusAccess.ofAddress Config.md5Base address lanes.length) (wordOfLanes Config.busByteOrder lanes)

/-- A bus read of the given width at an absolute address. -/
def busRead (address bytes name : Nat) : HostOp :=
  .rd (BusAccess.ofAddress Config.md5Base address bytes) name

end Sys2Proof.Machine
end

