-- ==== Sys2Proof/Machine/System.lean ====
section
/-! DEFINITION. A system of `N_INSTANCES` cores, each with its own host, window and copy of every state element;
they share only the constants ROM and do not interact (60_exceptions.md R239, 40_constants.md R105). -/

namespace Sys2Proof.Machine

/-- The instances of a system, in the order of their numbers (R239). -/
structure System where
  units : List State
deriving DecidableEq, Repr

/-- `n` instances right after reset, each under its own number. -/
def System.resetOf (n : Nat) : System := ⟨(List.range n).map fun k => { State.reset with unit := k }⟩

/-- Every instance right after reset; `Config.nInstances` is the open parameter of R6. -/
def System.reset : System := System.resetOf Config.nInstances

/-- Every instance stands under its own number, so that no two of them share a free value (R73, R239; log entry 2). -/
def System.Numbered (y : System) : Prop := ∀ (k : Nat) (s : State), y.units[k]? = some s → s.unit = k

/-- Instance `k` takes one step (a number no instance has: nothing changes, log entry 11). -/
def System.step (k : Nat) (y : System) : Host.Outcome System Fault Refusal :=
  match y.units[k]? with
  | some s => mapNext (fun t => ⟨y.units.set k t⟩) (Machine.step s)
  | none => .next y

end Sys2Proof.Machine
end

