-- ==== Sys2Proof/Safety.lean ====
section
/-! DEFINITION. The terms in which claims about the machine are made: the invariant of 10_state.md R45, runs of the
core alone, the absorbed message of a run (44_commands.md R209) and how the core holds it in every phase, and host
programs that cannot be refused. -/

namespace Sys2Proof.Machine

/-- The invariant of R45 (items 1 to 4), with what makes it inductive: the bounds of R26, R32 and R201, and what
holds in the phases that R45 does not name. -/
abbrev CoreState.Inv (c : CoreState) : Prop :=
  (c.phase = .idle → c.fill.val ≤ 63 ∧ c.pend = []) ∧
  (c.phase = .round ∨ c.phase = .addback → c.fill.val = 64) ∧
  (c.done = true → c.phase = .idle ∧ c.fill.val = 0) ∧
  (c.err = false ↔ c.ecause = .none) ∧
  c.ecause ≠ .reserved ∧
  c.pend.length ≤ 4 ∧
  (c.phase = .fin1 → c.fill.val ≤ 63 ∧ c.pend = []) ∧
  (c.phase = .fin2 → c.fill.val = 0 ∧ c.pend = []) ∧
  ((c.phase = .round ∨ c.phase = .addback) ∧ c.ret = .fin2 → c.pend = [])

/-- The invariant of the machine: its core meets `CoreState.Inv`. -/
abbrev State.Inv (s : State) : Prop := s.core.Inv

/-- A core that R44 allows right after reset: every element the rule gives a value has it; W, RND, RET, LENDONE and
BUF are "unspecified" and may be anything (U1). -/
abbrev CoreState.AfterReset (c : CoreState) : Prop :=
  c.h = iv ∧ c.len = 0 ∧ c.fill = 0 ∧ c.pend = [] ∧ c.phase = .idle ∧ c.done = false ∧ c.err = false ∧
    c.ecause = .none ∧ c.data = 0

/-- `k` steps of the core alone, with no host step between them. -/
def coreRun : (k : Nat) → CoreState → Host.Outcome CoreState Fault Refusal
  | 0, c => .next c
  | k + 1, c =>
    match coreStep c with
    | .next c' => coreRun k c'
    | .fault f => .fault f
    | .refused r => .refused r

/-- `k` steps of the machine, stopping at the first fault or refusal (the run of the host's `Host.Core.run`). -/
def machineRun : (k : Nat) → State → Host.Outcome State Fault Refusal
  | 0, s => .next s
  | k + 1, s =>
    match step s with
    | .next s' => machineRun k s'
    | .fault f => .fault f
    | .refused r => .refused r

/-- The core, stepping alone from `c`, is IDLE after exactly `k` steps and busy before (R204). -/
def CoreState.IdleAfter (c : CoreState) (k : Nat) : Prop :=
  (∃ d, coreRun k c = .next d ∧ d.phase = .idle) ∧ ∀ j < k, ∃ d, coreRun j c = .next d ∧ d.phase ≠ .idle

/-- The command word that the next step accepts, if it accepts one (R190, R196). -/
def State.acceptedWord (s : State) : Option Word :=
  match nextAgent s with
  | some .host =>
    match s.hostLine with
    | some op => op.commandWord
    | none => none
  | _ => none

/-- The absorbed message after the next step, if it is `m` before: reset and an accepted INIT begin a new message;
an ABSORB accepted with DONE = 0 appends the bytes it takes from DATA; nothing else adds to it (R209). -/
def State.messageAfter (s : State) (m : List Byte) : List Byte :=
  match nextAgent s with
  | some .reset => []
  | _ =>
    match s.acceptedWord with
    | some c =>
      match decode c with
      | .ok .init => []
      | .ok (.absorb n) => if s.core.done then m else m ++ dataBytes s.core.data n
      | _ => m
    | none => m

/-- `Absorbed m s`: some run of the machine, from a state right after reset, with any host program and any
schedule, reaches `s`, and `m` is its absorbed message (R209). -/
inductive Absorbed : List Byte → State → Prop where
  | afterReset (s : State) (h : s.core.AfterReset) : Absorbed [] s
  | afterStep (m : List Byte) (s t : State) (hs : Absorbed m s) (h : step s = .next t) : Absorbed (s.messageAfter m) t

/-- The bytes of the absorbed message `m` that have left PEND: the PEND of an accepted ABSORB is the end of `m`. -/
def CoreState.placed (m : List Byte) (c : CoreState) : List Byte := m.take (m.length - c.pend.length)

/-- The core holds the placed bytes `p`: whole blocks in H, the last FILL bytes in BUF (R45 item 5, R211; in the phases
between, FILL may be 64, R24). -/
def CoreState.Holds (p : List Byte) (c : CoreState) : Prop :=
  c.fill.val ≤ p.length ∧ (p.length - c.fill.val) % 64 = 0 ∧
  c.h = chain iv (blocks (p.take (p.length - c.fill.val))) ∧
  ∀ j : Fin 64, j.val < c.fill.val → some c.buf[j] = p[p.length - c.fill.val + j.val]?

/-- The chaining value that the finalization ends with, from a compression of BUF in progress: one block more if the
length is not yet placed (R202). -/
def CoreState.afterThisBlock (c : CoreState) : Quad :=
  if c.lenDone then compress c.h c.buf else compress (compress c.h c.buf) (lengthBlock c.buf c.len)

/-- How the core stands to the absorbed message `m` in every phase (R127, R150, R209 to R212). -/
structure CoreState.Tracks (m : List Byte) (c : CoreState) : Prop where
  /-- PEND is the end of `m`. -/
  pending : c.placed m ++ c.pend = m
  /-- LEN counts the placed bytes (R25). -/
  counted : c.len = bitLength (c.placed m).length
  /-- Before the finalization H and BUF hold the placed bytes (R211). -/
  absorbing : c.done = false →
    (c.phase = .idle ∨ c.phase = .absorb ∨ c.phase = .fin1 ∨
      (c.phase = .round ∨ c.phase = .addback) ∧ c.ret = .absorb) → c.Holds (c.placed m)
  /-- Before round RND, W is the outcome of the rounds below RND (R150). -/
  inRounds : c.phase = .round → c.w = md5Rounds (blockWords c.buf) c.h c.rnd.val
  /-- Before the add-back, W is the outcome of all 64 rounds (R150). -/
  afterRounds : c.phase = .addback → c.w = md5Rounds (blockWords c.buf) c.h 64
  /-- During a compression of the finalization the blocks still to come end in the digest of `m` (R210). -/
  finalizing : (c.phase = .round ∨ c.phase = .addback) ∧ c.ret = .fin2 → c.afterThisBlock = chain iv (blocks (pad m))
  /-- After it, the digest of `m` is in H or one length block away (R202). -/
  ending : c.phase = .fin2 →
    (if c.lenDone then c.h else compress c.h (lengthBlock c.buf c.len)) = chain iv (blocks (pad m))
  /-- With DONE = 1, H is the final running state of `m` (R212). -/
  finished : c.done = true → c.h = chain iv (blocks (pad m))

/-- A line of a host program that is no inadmissible access (R66). -/
def HostOp.Admitted (op : HostOp) : Prop :=
  match op with
  | .wr a _ => ∃ r, a.register = .ok r
  | .rd a _ => ∃ r, a.register = .ok r
  | .bnz _ _ _ => True

/-- A machine whose next host line cannot be refused: its access is admitted, and a branch reads a name that the
host has read (R66, R87). -/
def State.HostReady (s : State) : Prop :=
  ∀ op, s.hostLine = some op → op.Admitted ∧ ∀ name mask target, op = .bnz name mask target → s.nameValue name ≠ none

/-- The step answers a next state. -/
def State.Goes (s : State) : Prop := ∃ t, step s = .next t

end Sys2Proof.Machine
end

