-- ==== Sys2Proof/Certificates/Slice0/Obligations.lean ====
section
/-! DEFINITION. The statements about the machine, for the provers. Each docstring names the rule of spec/ it
formalises; a result state is written out field by field, so that what an instruction leaves unchanged (its frame)
is part of the equation. -/

open Sys2Proof Sys2Proof.Machine

/-! ### Command words -/

/-- 30_encoding.md R81: the words of the opcode map, each with its command; OP 0x4 to 0xF is no command. -/
def Obligations.OpcodeMapWordsDecode : Prop :=
  decode 0x00000000 = .ok .nop ∧ decode 0x00000001 = .ok .init ∧
  decode 0x00000002 = .ok (.absorb 1) ∧ decode 0x00000012 = .ok (.absorb 2) ∧
  decode 0x00000022 = .ok (.absorb 3) ∧ decode 0x00000032 = .ok (.absorb 4) ∧
  decode 0x00000003 = .ok .final ∧
  ∀ c : Word, 4 ≤ c.toNat % 16 → ∀ i, decode c ≠ .ok i

/-- 30_encoding.md R83: the legal words are those of the formula, they are the seven listed, and they are the words
that decode. -/
def Obligations.LegalWordsAreTheSevenListed : Prop :=
  ∀ c : Word,
    (legal c = true ↔
      c.toNat / 64 = 0 ∧
        (c.toNat % 16 = 2 ∨ (c.toNat % 16 = 0 ∨ c.toNat % 16 = 1 ∨ c.toNat % 16 = 3) ∧ c.toNat / 16 % 4 = 0)) ∧
    (legal c = true ↔
      c = 0x00000000 ∨ c = 0x00000001 ∨ c = 0x00000002 ∨ c = 0x00000012 ∨ c = 0x00000022 ∨ c = 0x00000032 ∨
        c = 0x00000003) ∧
    (legal c = true ↔ ∃ i, decode c = .ok i)

/-- 30_encoding.md R80 to R82, R85: on all 2^32 words and all commands with every operand value, a word decodes to a
command exactly when the command is well formed and encodes to that word. -/
def Obligations.DecodeAndEncodeAgree : Prop :=
  ∀ (c : Word) (i : Instr), decode c = .ok i ↔ i.WellFormed ∧ encode i = c

/-! ### The four commands at acceptance -/

/-- 44_commands.md R191: ERR is set and ECAUSE keeps the first cause; nothing else changes. -/
def Obligations.SetErrKeepsFirstCause : Prop :=
  ∀ (c : CoreState) (code : Cause),
    (c.err = false → c.setErr code = { c with err := true, ecause := code }) ∧
    (c.err = true → c.setErr code = c)

/-- 44_commands.md R192: NOP is the word 0, and a NOP word with other bits set is illegal; NOP, accepted in IDLE (with
DONE = 1 too), changes nothing; from reset STATUS stays 0. -/
def Obligations.NopChangesNothing : Prop :=
  (∀ s : State, s.core.phase = .idle → exec .nop s = .next s) ∧
  decode 0x00000000 = .ok .nop ∧ (∀ c : Word, c.toNat % 16 = 0 → c ≠ 0 → legal c = false) ∧
  ∃ t, exec .nop State.reset = .next t ∧ regRead .status t = 0x00000000

/-- 44_commands.md R193: INIT is the word 1. Accepted in IDLE, in every such state, it loads the IV, clears LEN, FILL,
PEND, DONE, ERR and ECAUSE, and leaves everything else; STATUS becomes 0, DIGEST0..3 read the IV words, and INIT twice
is the same as once. Written while the core is busy it interrupts nothing: the step is the core's own (R190). -/
def Obligations.InitStartsNewDigest : Prop :=
  decode 0x00000001 = .ok .init ∧
  (∀ s : State, s.core.phase = .idle →
    ∃ t, exec .init s = .next t ∧
      t = { s with core := { s.core with
              h := ⟨0x67452301, 0xefcdab89, 0x98badcfe, 0x10325476⟩, len := 0, fill := 0, pend := [],
              done := false, err := false, ecause := .none } } ∧
      regRead .status t = 0x00000000 ∧
      regRead .digest0 t = 0x67452301 ∧ regRead .digest1 t = 0xefcdab89 ∧
      regRead .digest2 t = 0x98badcfe ∧ regRead .digest3 t = 0x10325476 ∧
      exec .init t = .next t) ∧
  ∀ (s : State) (d : CoreState), s.core.phase ≠ .idle → s.turns.head? ≠ some .reset →
    s.hostLine = some (.wr (BusAccess.ofReg .cmd) 0x00000001) → coreStep s.core = .next d →
    step s = .next { s with core := d, turns := s.turns.tail, epoch := s.epoch + 1 }

/-- 20_memory.md R64, 44_commands.md R194: ABSORB n, accepted in IDLE with DONE = 0, takes byte k of DATA
(DATA[8k+7 : 8k]) as byte k of PEND for k below n, enters phase ABSORB, and changes nothing else; so the bytes of DATA
above the first n have no effect, and `DATA = le32(b0, b1, b2, b3)` supplies the four bytes in that order. -/
def Obligations.AbsorbTakesDataBytes : Prop :=
  (∀ (s : State) (n : Nat), 1 ≤ n → n ≤ 4 → s.core.phase = .idle → s.core.done = false →
    exec (.absorb n) s = .next { s with core := { s.core with
      pend := (List.range n).map (fun k => BitVec.ofNat 8 (s.core.data.toNat / 2 ^ (8 * k))),
      phase := .absorb } }) ∧
  ∀ (s : State) (b0 b1 b2 b3 : Byte), s.core.phase = .idle → s.core.done = false →
    s.core.data.toNat = b0.toNat + 2 ^ 8 * b1.toNat + 2 ^ 16 * b2.toNat + 2 ^ 24 * b3.toNat →
    exec (.absorb 4) s = .next { s with core := { s.core with pend := [b0, b1, b2, b3], phase := .absorb } }

/-- 44_commands.md R195: FINAL, accepted in IDLE with DONE = 0, enters phase FIN1 and changes nothing else (so not
LEN). -/
def Obligations.FinalEntersFinalization : Prop :=
  ∀ s : State, s.core.phase = .idle → s.core.done = false →
    exec .final s = .next { s with core := { s.core with phase := .fin1 } }

/-- 60_exceptions.md R231, 44_commands.md R196: ABSORB and FINAL accepted while DONE = 1 do SetErr(2) and change only
ERR and ECAUSE. -/
def Obligations.SequenceErrorAfterDone : Prop :=
  ∀ (s : State) (i : Instr), s.core.phase = .idle → s.core.done = true → ((∃ n, i = .absorb n) ∨ i = .final) →
    exec i s = .next { s with core := { s.core with
      err := true, ecause := if s.core.err = true then s.core.ecause else .sequenceError } }

/-- 30_encoding.md R84: an illegal word, when accepted, has exactly one effect, SetErr(1): it changes only ERR and
ECAUSE, and the core stays IDLE. Illegal are the words with a reserved opcode, a nonzero RSV field, or a nonzero NBM1
field on NOP, INIT or FINAL. -/
def Obligations.IllegalWordOnlySetsError : Prop :=
  (∀ (s : State) (c : Word), s.core.phase = .idle → legal c = false →
    accept c s = .next { s with core := { s.core with
      err := true, ecause := if s.core.err = true then s.core.ecause else .illegalCommand } }) ∧
  ∀ c : Word, (4 ≤ c.toNat % 16 ∨ c.toNat / 64 ≠ 0 ∨ c.toNat % 16 ≠ 2 ∧ c.toNat / 16 % 4 ≠ 0) → legal c = false

/-- 44_commands.md R196: `Accept(c)` in IDLE, in the order of the rule: illegality first, then NOP and INIT whatever
DONE is, then the DONE check for ABSORB and FINAL, then ABSORB (c[5:4] + 1) and FINAL. -/
def Obligations.AcceptDispatchesInOrder : Prop :=
  ∀ (s : State) (c : Word), s.core.phase = .idle →
    accept c s = .next (
      if legal c = false then { s with core := s.core.setErr .illegalCommand }
      else if c.toNat % 16 = 0 then s
      else if c.toNat % 16 = 1 then { s with core := { s.core with
        h := ⟨0x67452301, 0xefcdab89, 0x98badcfe, 0x10325476⟩, len := 0, fill := 0, pend := [],
        done := false, err := false, ecause := .none } }
      else if s.core.done = true then { s with core := s.core.setErr .sequenceError }
      else if c.toNat % 16 = 2 then { s with core := { s.core with
        pend := (List.range (c.toNat / 16 % 4 + 1)).map (fun k => BitVec.ofNat 8 (s.core.data.toNat / 2 ^ (8 * k))),
        phase := .absorb } }
      else { s with core := { s.core with phase := .fin1 } })

/-! ### The core's steps -/

/-- 44_commands.md R198, R203: the step in phase ABSORB: at FILL = 64 the compression starts with RET = ABSORB; else
the head of PEND goes to BUF[FILL], FILL grows by 1, LEN by 8 modulo 2^64; else the core is IDLE. After the step
PHASE = IDLE implies FILL ≤ 63. -/
def Obligations.AbsorbStepPlacesByteOrCompresses : Prop :=
  ∀ c : CoreState, c.phase = .absorb →
    (c.fill.val = 64 →
      coreStep c = .next { c with w := c.h, rnd := 0, ret := .absorb, phase := .round }) ∧
    (∀ b rest, c.fill.val < 64 → c.pend = b :: rest →
      ∃ d, coreStep c = .next d ∧
        (∀ j : Fin 64, d.buf[j] = if j.val = c.fill.val then b else c.buf[j]) ∧
        d.fill.val = c.fill.val + 1 ∧ d.len.toNat = (c.len.toNat + 8) % 2 ^ 64 ∧
        d = { c with buf := d.buf, fill := d.fill, len := d.len, pend := rest }) ∧
    (c.fill.val < 64 → c.pend = [] → coreStep c = .next { c with phase := .idle }) ∧
    (∀ d, coreStep c = .next d → d.phase = .idle → d.fill.val ≤ 63)

/-- 44_commands.md R199: the step in phase ROUND does one round on W with the words of BUF, and goes to ADDBACK after
round 63; H and BUF are not written. -/
def Obligations.RoundStepDoesOneRound : Prop :=
  ∀ c : CoreState, c.phase = .round →
    (c.rnd.val = 63 →
      coreStep c = .next { c with w := md5Round c.rnd c.w (blockWords c.buf), phase := .addback }) ∧
    (∀ r : Fin 64, r.val = c.rnd.val + 1 →
      coreStep c = .next { c with w := md5Round c.rnd c.w (blockWords c.buf), rnd := r })

/-- 44_commands.md R200: the step in phase ADDBACK adds W to H word by word modulo 2^32, sets FILL to 0 and enters
the phase that RET names. -/
def Obligations.AddbackStepAddsWorkingRegisters : Prop :=
  ∀ c : CoreState, c.phase = .addback →
    coreStep c = .next { c with
      h := ⟨c.h.a + c.w.a, c.h.b + c.w.b, c.h.c + c.w.c, c.h.d + c.w.d⟩
      fill := 0
      phase := match c.ret with
        | .absorb => .absorb
        | .fin2 => .fin2 }

/-- 44_commands.md R201, R203: the step in phase FIN1 with FILL in 0..63. Byte FILL becomes 0x80, the bytes above it
0x00, except that with FILL ≤ 55 bytes 56..63 are the little-endian LEN; LENDONE says which; FILL becomes 64 and the
compression starts with RET = FIN2; nothing else changes. FIN1 is entered only from FINAL, with FILL as it was. -/
def Obligations.Fin1StepPlacesPadding : Prop :=
  (∀ c : CoreState, c.phase = .fin1 → c.fill.val ≤ 63 →
    ∃ d, coreStep c = .next d ∧
      (∀ j : Fin 64, d.buf[j] =
        if j.val < c.fill.val then c.buf[j]
        else if j.val = c.fill.val then 0x80
        else if c.fill.val ≤ 55 ∧ 56 ≤ j.val then BitVec.ofNat 8 (c.len.toNat / 2 ^ (8 * (j.val - 56)))
        else 0x00) ∧
      d = { c with
        buf := d.buf, lenDone := decide (c.fill.val ≤ 55), fill := 64, w := c.h, rnd := 0, ret := .fin2,
        phase := .round }) ∧
  ∀ s t : State, s.Inv → step s = .next t → s.core.phase ≠ .fin1 → t.core.phase = .fin1 →
    s.acceptedWord = some 0x00000003 ∧ t.core.fill = s.core.fill ∧ t.core.fill.val ≤ 63

/-- 44_commands.md R202, R203: the step in phase FIN2: with LENDONE = 1 the core is DONE and IDLE; else the length block (56 zeros and
the little-endian LEN) is formed and its compression starts. -/
def Obligations.Fin2StepEndsOrFormsLengthBlock : Prop :=
  ∀ c : CoreState, c.phase = .fin2 →
    (c.lenDone = true → coreStep c = .next { c with done := true, phase := .idle }) ∧
    (c.lenDone = false →
      ∃ d, coreStep c = .next d ∧
        (∀ j : Fin 64, d.buf[j] =
          if j.val < 56 then 0x00 else BitVec.ofNat 8 (c.len.toNat / 2 ^ (8 * (j.val - 56)))) ∧
        d = { c with
          buf := d.buf, lenDone := true, fill := 64, w := c.h, rnd := 0, ret := .fin2, phase := .round })

/-! ### The operation level -/

/-- 42_compressor.md R140: for an amount in 1..31, bit j of `rotl(x, n)` is bit (j - n) mod 32 of x, and the value is
the formula's; every amount the core uses is in that range; with the rule's three examples. -/
def Obligations.RotlMovesEachBit : Prop :=
  (∀ (x : Word) (n : Nat), 1 ≤ n → n ≤ 31 →
    (∀ j < 32, (rotl x n).getLsbD j = x.getLsbD ((j + 32 - n) % 32)) ∧
    (rotl x n).toNat = x.toNat * 2 ^ n % 2 ^ 32 + x.toNat / 2 ^ (32 - n)) ∧
  (∀ i : Fin 64, 1 ≤ romS i ∧ romS i ≤ 31) ∧
  rotl 0x80000000 1 = 0x00000001 ∧ rotl 0x12345678 4 = 0x23456781 ∧ rotl 0x00000001 31 = 0x80000000

/-- 42_compressor.md R142 to R145: the four mixing functions bit by bit (F selects C or D by B, G selects B or C by D,
H is parity, I is C xor (B or not D)), with the rules' examples. -/
def Obligations.MixingFunctionsBitwise : Prop :=
  (∀ (b c d : Word) (j : Nat), j < 32 →
    (mixF b c d).getLsbD j = (if b.getLsbD j = true then c.getLsbD j else d.getLsbD j) ∧
    (mixG b c d).getLsbD j = (if d.getLsbD j = true then b.getLsbD j else c.getLsbD j) ∧
    (mixH b c d).getLsbD j = xor (xor (b.getLsbD j) (c.getLsbD j)) (d.getLsbD j) ∧
    (mixI b c d).getLsbD j = xor (c.getLsbD j) (b.getLsbD j || !d.getLsbD j)) ∧
  mixF 0xefcdab89 0x98badcfe 0x10325476 = 0x98badcfe ∧ mixG 0xefcdab89 0x98badcfe 0x10325476 = 0x88888888 ∧
  mixH 0xefcdab89 0x98badcfe 0x10325476 = 0x67452301 ∧ mixI 0xefcdab89 0x98badcfe 0x10325476 = 0x77777777 ∧
  mixI 0 0 0 = 0xFFFFFFFF

/-- 42_compressor.md R146: the dispatch over the four bands of rounds, and the word index of each band. -/
def Obligations.BandDispatch : Prop :=
  ∀ (i : Fin 64) (b c d : Word),
    (i.val / 16 = 0 → mixFn i b c d = mixF b c d ∧ (msgIndex i).val = i.val) ∧
    (i.val / 16 = 1 → mixFn i b c d = mixG b c d ∧ (msgIndex i).val = (5 * i.val + 1) % 16) ∧
    (i.val / 16 = 2 → mixFn i b c d = mixH b c d ∧ (msgIndex i).val = (3 * i.val + 5) % 16) ∧
    (i.val / 16 = 3 → mixFn i b c d = mixI b c d ∧ (msgIndex i).val = (7 * i.val) % 16)

/-- 42_compressor.md R147: "Within each band every `M[j]`, j in 0..15, is used exactly once." -/
def Obligations.EachBandUsesEachWordOnce : Prop :=
  ∀ (band : Fin 4) (j : Fin 16), ∃ i : Fin 64,
    i.val / 16 = band.val ∧ msgIndex i = j ∧ ∀ i' : Fin 64, i'.val / 16 = band.val → msgIndex i' = j → i' = i

/-- 40_constants.md R101: the rotation amounts by band and position; every one is in 4..23. -/
def Obligations.RotationSchedule : Prop :=
  ∀ i : Fin 64,
    (i.val / 16 = 0 → romS i = [7, 12, 17, 22].getD (i.val % 4) 0) ∧
    (i.val / 16 = 1 → romS i = [5, 9, 14, 20].getD (i.val % 4) 0) ∧
    (i.val / 16 = 2 → romS i = [4, 11, 16, 23].getD (i.val % 4) 0) ∧
    (i.val / 16 = 3 → romS i = [6, 10, 15, 21].getD (i.val % 4) 0) ∧
    4 ≤ romS i ∧ romS i ≤ 23

/-- 40_constants.md R102: the ROM's 64 round constants are `floor(abs(sin(i+1)) * 2^32)`, with the argument in
radians (the spec marks the unit as general knowledge, G1, so this is no rule of the source). -/
def Obligations.RoundConstantsAreTheSineFormula : Prop :=
  ∀ i : Fin 64, ((romK i).toNat : ℤ) = ⌊|Real.sin ((i.val : ℝ) + 1)| * 2 ^ 32⌋

/-- 42_compressor.md R148: one round, with the rule's example (the first round of the block of "abc"). -/
def Obligations.RoundFunction : Prop :=
  (∀ (i : Fin 64) (a b c d : Word) (m : Words),
    md5Round i ⟨a, b, c, d⟩ m = ⟨d, b + rotl (mixFn i b c d + a + romK i + m[msgIndex i]) (romS i), b, c⟩) ∧
  mixFn 0 0xefcdab89 0x98badcfe 0x10325476 = 0x98badcfe ∧ rotl 0x57ce06d8 7 = 0xe7036c2b ∧
  ∀ m : Words, m[0] = 0x80636261 →
    roundSum 0 iv m = 0x57ce06d8 ∧
    md5Round 0 iv m = ⟨0x10325476, 0xd6d117b4, 0xefcdab89, 0x98badcfe⟩

/-- 20_memory.md R61: word j of a block is bytes 4j..4j+3, little-endian: `b[4j]` is bits 7:0 and `b[4j+3]` bits 31:24. -/
def Obligations.BlockWordsAreLittleEndian : Prop :=
  (∀ (b : Block) (j : Fin 16) (k : Fin 4) (p : Fin 64), p.val = 4 * j.val + k.val →
    (blockWords b)[j].toNat / 2 ^ (8 * k.val) % 2 ^ 8 = (b[p] : Byte).toNat) ∧
  ∀ b : Block, b[0] = 0x61 → b[1] = 0x62 → b[2] = 0x63 → b[3] = 0x80 → (blockWords b)[0] = 0x80636261

/-- 41_padding.md R121: `Pad(m)` is m, the byte 0x80, fewer than 64 zero bytes up to a length of 56 modulo 64,
and the eight little-endian bytes of 8L mod 2^64. -/
def Obligations.PadIsMarkerZerosLength : Prop :=
  ∀ m : List Byte, ∃ z < 64,
    (m.length + 1 + z) % 64 = 56 ∧
    pad m = m ++ [0x80] ++ List.replicate z 0x00 ++
      (List.range 8).map (fun k => BitVec.ofNat 8 (8 * m.length % 2 ^ 64 / 2 ^ (8 * k)))

/-- 41_padding.md R122, R124, R125, R126: the number of zeros is (55 - L) mod 64; the padded length is 64 n(L) with
n(L) = (L + 8) / 64 + 1, between L + 9 and L + 72; and an extra block arises exactly for L mod 64 in 56..63. -/
def Obligations.PadLengthAndBlockCount : Prop :=
  ∀ m : List Byte,
    (zeroCount m.length : ℤ) = (55 - (m.length : ℤ)) % 64 ∧
    (pad m).length = m.length + 1 + zeroCount m.length + 8 ∧
    (pad m).length = 64 * blockCount m.length ∧
    m.length + 9 ≤ (pad m).length ∧ (pad m).length ≤ m.length + 72 ∧
    (blocks (pad m)).length = blockCount m.length ∧
    (m.length % 64 ≤ 55 → blockCount m.length = m.length / 64 + 1) ∧
    (56 ≤ m.length % 64 → blockCount m.length = m.length / 64 + 2)

/-- 41_padding.md R128: the last eight bytes of `Pad(m)`, read little-endian, give the bit length modulo 2^64; they give
the bit length itself exactly when 8L < 2^64. -/
def Obligations.PadLengthIsRecoverable : Prop :=
  ∀ m : List Byte,
    ((pad m).drop ((pad m).length - 8)).foldr (fun b acc => b.toNat + 2 ^ 8 * acc) 0 = 8 * m.length % 2 ^ 64 ∧
    (((pad m).drop ((pad m).length - 8)).foldr (fun b acc => b.toNat + 2 ^ 8 * acc) 0 = 8 * m.length ↔
      8 * m.length < 2 ^ 64)

/-- 43_driver.md R171: the blocks of a sequence whose length is a multiple of 64 are its consecutive 64-byte parts in
order. -/
def Obligations.BlocksPartitionInOrder : Prop :=
  ∀ p : List Byte, p.length % 64 = 0 →
    (blocks p).length = p.length / 64 ∧ ((blocks p).map Vector.toList).flatten = p

/-- 43_driver.md R173, 20_memory.md R63: the serialization of (A, B, C, D) is 16 bytes; its byte 4n + j is bits
8j+7 : 8j of word n, and of DIGESTn as the host reads it with BUSY = 0; with the example of R63. -/
def Obligations.DigestBytesAreLittleEndian : Prop :=
  (∀ (q : Quad) (n j : Nat), n < 4 → j < 4 →
    (serialize q)[4 * n + j]? = some (BitVec.ofNat 8 (([q.a, q.b, q.c, q.d].getD n 0).toNat / 2 ^ (8 * j)))) ∧
  (∀ q : Quad, (serialize q).length = 16) ∧
  (∀ (s : State) (n j : Nat), s.core.phase = .idle → n < 4 → j < 4 →
    (serialize s.core.h)[4 * n + j]? =
      some (BitVec.ofNat 8 ((regRead ([Reg.digest0, .digest1, .digest2, .digest3].getD n .digest0) s).toNat /
        2 ^ (8 * j)))) ∧
  serialize ⟨0x67452301, 0xefcdab89, 0x98badcfe, 0x10325476⟩ =
    [0x01, 0x23, 0x45, 0x67, 0x89, 0xab, 0xcd, 0xef, 0xfe, 0xdc, 0xba, 0x98, 0x76, 0x54, 0x32, 0x10]

/-- 42_compressor.md R150: the 64 ROUND steps followed by the ADDBACK step leave H = Compress(H, BUF), with BUF, LEN,
PEND and DATA as they were, FILL 0, and the phase that RET names. -/
def Obligations.RoundsThenAddbackCompress : Prop :=
  ∀ c : CoreState, c.phase = .round → c.rnd = 0 → c.w = c.h →
    ∃ d, coreRun 65 c = .next d ∧
      d = { c with h := compress c.h c.buf, w := d.w, rnd := d.rnd, fill := 0, phase := c.ret.phase }

/-! ### The host's accesses and the agents -/

/-- 10_state.md R35: the register map: the register at each of the sixteen offsets, and the access to each register
reaches it. -/
def Obligations.RegisterMapOffsets : Prop :=
  (∀ k : Fin 16,
    (BusAccess.mk (4 * k.val : Nat) 4).register =
      .ok ([Reg.cmd, .data, .status, .lenLo, .lenHi, .rsv14, .rsv18, .rsv1C, .digest0, .digest1, .digest2, .digest3,
        .rsv30, .rsv34, .rsv38, .rsv3C].getD k.val .cmd)) ∧
  ∀ r : Reg, (BusAccess.ofReg r).register = .ok r

/-- 20_memory.md R66: an access is admitted exactly when it is 4 bytes wide, aligned and inside the window; a step of
the host with any other access is refused. -/
def Obligations.OtherAccessesAreRefused : Prop :=
  (∀ a : BusAccess, (∃ r, a.register = .ok r) ↔ a.bytes = 4 ∧ 0 ≤ a.offset ∧ a.offset ≤ 0x3C ∧ a.offset % 4 = 0) ∧
  ∀ (s : State) (a : BusAccess), s.turns.head? = some .host →
    ¬(a.bytes = 4 ∧ 0 ≤ a.offset ∧ a.offset ≤ 0x3C ∧ a.offset % 4 = 0) →
    ((∃ v, s.hostLine = some (.wr a v)) ∨ ∃ name, s.hostLine = some (.rd a name)) →
    ∃ r : Refusal, step s = .refused r

/-- 44_commands.md R190, R196: with the core IDLE and the host's turn, a CMD write is one step that accepts the word;
when the word decodes to a command i, the step is exec of i, with the scheduler's choice used up and the host at its
next line. -/
def Obligations.StepRunsTheDecodedCommand : Prop :=
  ∀ (s : State) (c : Word), s.core.phase = .idle → s.turns.head? ≠ some .reset →
    s.hostLine = some (.wr (BusAccess.ofReg .cmd) c) →
    step s = accept c { s with turns := s.turns.tail, hostPc := s.hostPc + 1, epoch := s.epoch + 1 } ∧
    ∀ i, decode c = .ok i →
      step s = exec i { s with turns := s.turns.tail, hostPc := s.hostPc + 1, epoch := s.epoch + 1 }

/-- 44_commands.md R190: while PHASE ≠ IDLE a CMD write is held: the step is the core's own, and the host stays at its
line. -/
def Obligations.CommandWriteIsHeldWhileBusy : Prop :=
  ∀ (s : State) (c : Word) (d : CoreState), s.core.phase ≠ .idle → s.turns.head? ≠ some .reset →
    s.hostLine = some (.wr (BusAccess.ofReg .cmd) c) → coreStep s.core = .next d →
    step s = .next { s with core := d, turns := s.turns.tail, epoch := s.epoch + 1 }

/-- 44_commands.md R190, R204: a held CMD write is accepted: with no reset in the schedule, whatever it asks for, the
machine is IDLE with the host at the same line after at most 133 steps, all of them the core's. -/
def Obligations.HeldWriteWaitsAtMost133Steps : Prop :=
  ∀ (s : State) (c : Word), s.core.Inv → s.core.phase ≠ .idle → Turn.reset ∉ s.turns →
    s.hostLine = some (.wr (BusAccess.ofReg .cmd) c) →
    ∃ k ≤ 133, ∃ t : State, machineRun k s = .next t ∧ coreRun k s.core = .next t.core ∧
      t.core.phase = .idle ∧ t.program = s.program ∧ t.hostPc = s.hostPc ∧ t.reads = s.reads ∧ t.unit = s.unit

/-- 44_commands.md R208: a DATA write sets DATA in any state, busy or idle, and changes nothing else of the core (so
not the PEND bytes of an accepted ABSORB). -/
def Obligations.DataWriteInAnyState : Prop :=
  ∀ (s : State) (v : Word), s.turns.head? = some .host → s.hostLine = some (.wr (BusAccess.ofReg .data) v) →
    step s = .next { s with
      core := { s.core with data := v }, turns := s.turns.tail, hostPc := s.hostPc + 1, epoch := s.epoch + 1 }

/-- 10_state.md R41: reserved offsets read 0; writes to reserved offsets and to STATUS, LEN_LO, LEN_HI and DIGEST0..3
leave the core as it is, in any state. -/
def Obligations.ReservedAndReadOnlyRegisters : Prop :=
  (∀ (s : State) (r : Reg), r ∈ [Reg.rsv14, .rsv18, .rsv1C, .rsv30, .rsv34, .rsv38, .rsv3C] → regRead r s = 0) ∧
  ∀ (s : State) (r : Reg) (v : Word), r ≠ .cmd → r ≠ .data → s.turns.head? = some .host →
    s.hostLine = some (.wr (BusAccess.ofReg r) v) →
    step s = .next { s with turns := s.turns.tail, hostPc := s.hostPc + 1, epoch := s.epoch + 1 }

/-- 44_commands.md R207, 20_memory.md R68: a register read is a host step, in every state; the host gets the value,
nothing of the core changes, and every register then reads as before (so a second read gives the same value). -/
def Obligations.RegisterReadChangesNothing : Prop :=
  ∀ (s : State) (r : Reg) (name : Nat), s.turns.head? = some .host →
    s.hostLine = some (.rd (BusAccess.ofReg r) name) →
    ∃ t, step s = .next t ∧
      t = { s with turns := s.turns.tail, hostPc := s.hostPc + 1, reads := (name, regRead r s) :: s.reads } ∧
      ∀ r' : Reg, regRead r' t = regRead r' s

/-- 10_state.md R36, R37, R39, R40: what the registers read: CMD 0 and DATA always; LEN_LO, LEN_HI and DIGEST0..3 with
BUSY = 0 the halves of LEN and the words of H. -/
def Obligations.RegisterValues : Prop :=
  ∀ s : State,
    regRead .cmd s = 0 ∧ regRead .data s = s.core.data ∧
    (s.core.phase = .idle →
      (regRead .lenLo s).toNat = s.core.len.toNat % 2 ^ 32 ∧ (regRead .lenHi s).toNat = s.core.len.toNat / 2 ^ 32 ∧
      regRead .digest0 s = s.core.h.a ∧ regRead .digest1 s = s.core.h.b ∧
      regRead .digest2 s = s.core.h.c ∧ regRead .digest3 s = s.core.h.d)

/-- 10_state.md R38: the fields of STATUS, in every state: BUSY, DONE, ERR and ECAUSE exact at all times, the reserved
bits 0, FILL in 0..64, and FILL exact with BUSY = 0. -/
def Obligations.StatusFields : Prop :=
  ∀ s : State,
    (regRead .status s).getLsbD 0 = decide (s.core.phase ≠ .idle) ∧
    (regRead .status s).getLsbD 1 = s.core.done ∧
    (regRead .status s).getLsbD 2 = s.core.err ∧
    (regRead .status s).getLsbD 3 = false ∧
    (regRead .status s).toNat / 2 ^ 4 % 2 ^ 2 =
      (match s.core.ecause with
        | .none => 0
        | .illegalCommand => 1
        | .sequenceError => 2
        | .reserved => 3) ∧
    (regRead .status s).toNat / 2 ^ 6 % 2 ^ 2 = 0 ∧
    (regRead .status s).toNat / 2 ^ 8 % 2 ^ 7 ≤ 64 ∧
    (s.core.phase = .idle → (regRead .status s).toNat / 2 ^ 8 % 2 ^ 7 = s.core.fill.val) ∧
    (regRead .status s).toNat / 2 ^ 15 = 0

/-- 44_commands.md R197, R205 with the model's fallback (log entry 4): a reset choice resets; a core choice steps the core
exactly when it is busy; a host choice steps the host when it has a line that is not a held CMD write; an agent
without a step lets the other one go; with no choice left a busy core steps. -/
def Obligations.SchedulerPicksAnEnabledAgent : Prop :=
  ∀ s : State,
    (s.turns.head? = some .reset → nextAgent s = some .reset) ∧
    (s.turns.head? ≠ some .reset →
      (s.core.phase ≠ .idle → s.turns.head? ≠ some .host → nextAgent s = some .core) ∧
      (s.core.phase = .idle → (∃ op, s.hostLine = some op) → nextAgent s = some .host) ∧
      (s.turns.head? = some .host → (∃ op, s.hostLine = some op ∧ op.commandWord = none) → nextAgent s = some .host) ∧
      (s.core.phase ≠ .idle → s.hostLine = none → nextAgent s = some .core) ∧
      (s.core.phase = .idle → s.hostLine = none → nextAgent s = none ∧ step s = .next { s with turns := s.turns.tail }))

/-! ### Reset -/

/-- 70_reset_and_hazards.md R250, R251, 10_state.md R44: a reset, from any state, busy or idle, is one step that gives
every element for which R44 has a value that value; STATUS then reads 0 and DIGEST0..3 the IV words, and the host's
program, its place in it and what it has read stay. -/
def Obligations.ResetFromAnyState : Prop :=
  ∀ s : State, s.turns.head? = some .reset →
    ∃ t, step s = .next t ∧
      t.core.h = ⟨0x67452301, 0xefcdab89, 0x98badcfe, 0x10325476⟩ ∧ t.core.len = 0 ∧ t.core.fill = 0 ∧
      t.core.pend = [] ∧ t.core.phase = .idle ∧ t.core.done = false ∧ t.core.err = false ∧
      t.core.ecause = .none ∧ t.core.data = 0 ∧
      regRead .status t = 0x00000000 ∧
      regRead .digest0 t = 0x67452301 ∧ regRead .digest1 t = 0xefcdab89 ∧
      regRead .digest2 t = 0x98badcfe ∧ regRead .digest3 t = 0x10325476 ∧
      t.program = s.program ∧ t.hostPc = s.hostPc ∧ t.reads = s.reads ∧ t.turns = s.turns.tail ∧ t.unit = s.unit

/-- 10_state.md R44, R45, 44_commands.md R209: the machine right after reset has the values R44 gives, and every core
that R44 allows after reset meets the invariant and tracks the empty message, whatever its unspecified elements hold. -/
def Obligations.ResetStateMeetsInvariant : Prop :=
  State.reset.core.AfterReset ∧ State.reset.Inv ∧ regRead .status State.reset = 0x00000000 ∧
  ∀ c : CoreState, c.AfterReset → c.Inv ∧ c.Tracks []

/-! ### Rules about the whole machine -/

/-- 10_state.md R45 (items 1 to 4), with R26, R32 and R201's bounds: every step keeps the invariant, whatever the
host and the scheduler do. -/
def Obligations.EveryStepKeepsInvariant : Prop :=
  ∀ s t : State, s.Inv → step s = .next t → t.Inv

/-- 60_exceptions.md R230, R232: a machine that meets the invariant never faults, and it stops only where the host's
line is an inadmissible access or branches on a name it never read. -/
def Obligations.MachineGoesOn : Prop :=
  ∀ s : State, s.Inv → (∀ f : Fault, step s ≠ .fault f) ∧ (s.HostReady → ∃ t, step s = .next t)

/-- 44_commands.md R206: the state of the core changes only by a reset, a core step, `Accept` of a command word, or a
DATA write. -/
def Obligations.OnlyTheseStepsChangeTheCore : Prop :=
  ∀ s t : State, step s = .next t → t.core ≠ s.core →
    (nextAgent s = some .reset ∧ t.core.AfterReset) ∨
    (nextAgent s = some .core ∧ s.core.phase ≠ .idle ∧ coreStep s.core = .next t.core) ∨
    (nextAgent s = some .host ∧ s.core.phase = .idle ∧
      ∃ a c, s.hostLine = some (.wr a c) ∧ a.register = .ok .cmd ∧
        accept c { s with turns := s.turns.tail, hostPc := s.hostPc + 1, epoch := s.epoch + 1 } = .next t) ∨
    (nextAgent s = some .host ∧
      ∃ a v, s.hostLine = some (.wr a v) ∧ a.register = .ok .data ∧ t.core = { s.core with data := v })

/-- 10_state.md R20: H is written only by an accepted INIT, by the add-back step and by reset. -/
def Obligations.RunningStateWriters : Prop :=
  ∀ s t : State, step s = .next t → t.core.h ≠ s.core.h →
    nextAgent s = some .reset ∨ (nextAgent s = some .core ∧ s.core.phase = .addback) ∨ s.acceptedWord = some 0x00000001

/-- 10_state.md R25: LEN changes only by a reset, an accepted INIT, or a core step that places a message byte, which
adds 8 modulo 2^64; the padding steps leave it. -/
def Obligations.LengthCounterWriters : Prop :=
  ∀ s t : State, step s = .next t → t.core.len ≠ s.core.len →
    nextAgent s = some .reset ∨ s.acceptedWord = some 0x00000001 ∨
    (nextAgent s = some .core ∧ s.core.phase = .absorb ∧ s.core.fill.val < 64 ∧ t.core.len = s.core.len + 8 ∧
      ∃ b, s.core.pend = b :: t.core.pend)

/-- 10_state.md R31, R32, 60_exceptions.md R236: with ERR = 1, every step but a reset and an accepted INIT leaves ERR
set and ECAUSE as it is. -/
def Obligations.ErrorIsStickyWithFirstCause : Prop :=
  ∀ s t : State, step s = .next t → s.core.err = true → nextAgent s ≠ some .reset →
    s.acceptedWord ≠ some 0x00000001 → t.core.err = true ∧ t.core.ecause = s.core.ecause

/-- 60_exceptions.md R231, R232: ERR becomes 1 only by the acceptance of an illegal word (cause 1) or of an ABSORB or
FINAL with DONE = 1 (cause 2). -/
def Obligations.OnlyTheseRaiseAnError : Prop :=
  ∀ s t : State, step s = .next t → s.core.err = false → t.core.err = true →
    ∃ c, s.acceptedWord = some c ∧
      ((legal c = false ∧ t.core.ecause = .illegalCommand) ∨
        (legal c = true ∧ s.core.done = true ∧ (c.toNat % 16 = 2 ∨ c.toNat % 16 = 3) ∧
          t.core.ecause = .sequenceError))

/-- 10_state.md R30, R45 item 3, 44_commands.md R196: DONE becomes 1 only by a FIN2 step, and with DONE = 1 and the
core IDLE every step but a reset and an accepted INIT keeps it IDLE and DONE with H, LEN, FILL and BUF as they are. -/
def Obligations.FinishedDigestStays : Prop :=
  (∀ s t : State, step s = .next t → s.core.done = false → t.core.done = true →
    nextAgent s = some .core ∧ s.core.phase = .fin2 ∧ t.core.phase = .idle) ∧
  ∀ s t : State, step s = .next t → s.core.done = true → s.core.phase = .idle → nextAgent s ≠ some .reset →
    s.acceptedWord ≠ some 0x00000001 →
    t.core.done = true ∧ t.core.phase = .idle ∧ t.core.h = s.core.h ∧ t.core.len = s.core.len ∧
      t.core.fill = s.core.fill ∧ t.core.buf = s.core.buf

/-- 60_exceptions.md R242, 20_memory.md R71 (3): with the core IDLE, every step but a reset and an accepted command
leaves the core as it is but for DATA, so every later read of another register sees the same completed state. -/
def Obligations.IdleCoreHoldsItsState : Prop :=
  ∀ s t : State, step s = .next t → s.core.phase = .idle → nextAgent s ≠ some .reset → s.acceptedWord = none →
    t.core = { s.core with data := t.core.data } ∧ ∀ r : Reg, r ≠ .data → regRead r t = regRead r s

/-- 44_commands.md R204: the exact number of core steps from acceptance to IDLE for each command, and the bound of
133 from every state that meets the invariant. -/
def Obligations.StepCountsFromAcceptance : Prop :=
  (∀ (s t : State) (n : Nat), 1 ≤ n → n ≤ 4 → s.core.phase = .idle → s.core.done = false → s.core.fill.val ≤ 63 →
    exec (.absorb n) s = .next t → t.core.IdleAfter (if s.core.fill.val + n < 64 then n + 1 else n + 67)) ∧
  (∀ s t : State, s.core.phase = .idle → s.core.done = false → s.core.fill.val ≤ 63 → exec .final s = .next t →
    t.core.IdleAfter (if s.core.fill.val ≤ 55 then 67 else 133)) ∧
  (∀ (s t : State) (c : Word), s.core.phase = .idle →
    (c = 0x00000000 ∨ c = 0x00000001 ∨ legal c = false ∨ s.core.done = true) → accept c s = .next t →
    t.core.IdleAfter 0) ∧
  ∀ c : CoreState, c.Inv → ∃ k ≤ 133, c.IdleAfter k

/-- 44_commands.md R209 to R212, 41_padding.md R127, 42_compressor.md R150: in every phase, from every state that meets
the invariant and tracks an absorbed message m, every step, whatever the host and the scheduler do, gives a state that
tracks the message absorbed after that step. -/
def Obligations.EveryStepTracksTheMessage : Prop :=
  ∀ (m : List Byte) (s t : State), s.Inv → s.core.Tracks m → step s = .next t → t.core.Tracks (s.messageAfter m)

/-- 44_commands.md R211 (and 10_state.md R45 item 5): in every run, with PHASE = IDLE and DONE = 0, H is the chaining
value of the whole blocks of the absorbed message m, FILL is |m| mod 64, BUF[0..FILL-1] is the rest of m, and LEN is
8|m| mod 2^64. -/
def Obligations.AbsorbInvariant : Prop :=
  ∀ (m : List Byte) (s : State), Absorbed m s → s.core.phase = .idle → s.core.done = false →
    s.core.h = chain iv (blocks m) ∧
    s.core.fill.val = m.length % 64 ∧
    (∀ j : Fin 64, j.val < m.length % 64 → some s.core.buf[j] = m[64 * (m.length / 64) + j.val]?) ∧
    s.core.len.toNat = 8 * m.length % 2 ^ 64

/-- 44_commands.md R212: in every run, with PHASE = IDLE and DONE = 1, the running state serializes to MD5 of the
absorbed message, and so do the DIGEST registers as the host reads them. -/
def Obligations.DigestLaw : Prop :=
  ∀ (m : List Byte) (s : State), Absorbed m s → s.core.phase = .idle → s.core.done = true →
    serialize s.core.h = md5 m ∧
    bytes32 (regRead .digest0 s) ++ bytes32 (regRead .digest1 s) ++ bytes32 (regRead .digest2 s) ++
      bytes32 (regRead .digest3 s) = md5 m

/-- 44_commands.md R213: chunking independence: two runs, with any programs and any schedules, that absorbed the same
message and are DONE have the same digest, however it was split into commands. -/
def Obligations.ChunkingIndependence : Prop :=
  ∀ (m : List Byte) (s t : State), Absorbed m s → Absorbed m t → s.core.phase = .idle → t.core.phase = .idle →
    s.core.done = true → t.core.done = true → s.core.h = t.core.h

/-- 10_state.md R44, 41_padding.md R127: the elements that reset leaves unspecified (W, RND, RET, LENDONE, BUF) are
unobservable: from two cores that R44 allows after reset, with the same host program, schedule and read history, every
run of the machine gives the host the same reads and stops in the same way. -/
def Obligations.UnspecifiedResetValuesAreUnobservable : Prop :=
  ∀ (s : State) (c d : CoreState) (k : Nat), c.AfterReset → d.AfterReset →
    (∀ s' : State, machineRun k { s with core := c } = .next s' →
      ∃ t' : State, machineRun k { s with core := d } = .next t' ∧
        t'.reads = s'.reads ∧ t'.hostPc = s'.hostPc ∧ t'.core.h = s'.core.h ∧ t'.core.len = s'.core.len ∧
        t'.core.fill = s'.core.fill ∧ t'.core.phase = s'.core.phase ∧ t'.core.done = s'.core.done ∧
        t'.core.err = s'.core.err ∧ t'.core.ecause = s'.core.ecause) ∧
    ∀ r : Refusal, machineRun k { s with core := c } = .refused r →
      machineRun k { s with core := d } = .refused r

/-- 60_exceptions.md R239, 20_memory.md R73: instances do not interact: a step of instance k is the step of that machine
alone, and every other instance stays as it is; and after reset and every step each instance stands under its own number,
so that no two of them share a free value (the numbering is the model's, log entry 2). -/
def Obligations.InstancesAreIndependent : Prop :=
  (∀ (y : System) (k : Nat) (s : State), y.units[k]? = some s →
    (∀ t, Machine.step s = .next t →
      ∃ y', System.step k y = .next y' ∧ y'.units[k]? = some t ∧ ∀ j, j ≠ k → y'.units[j]? = y.units[j]?) ∧
    (∀ y', System.step k y = .next y' → ∃ t, Machine.step s = .next t ∧ y'.units[k]? = some t)) ∧
  (∀ n, (System.resetOf n).Numbered) ∧
  ∀ (y y' : System) (k : Nat), y.Numbered → System.step k y = .next y' → y'.Numbered

/-- 00_scope.md R6, 20_memory.md R66, R69: an aligned 4-byte access at `MD5_BASE + offset` is the access of that window
offset, whatever the base; and a word on the bus lanes is the same word under either byte-lane order. -/
def Obligations.BusParametersDoNotMatter : Prop :=
  (∀ (base : Nat) (r : Reg), (BusAccess.ofAddress base (base + r.offset) 4).register = .ok r) ∧
  ∀ (o : ByteOrder) (x : Word), wordOfLanes o (lanesOf o x) = x ∧ (lanesOf o x).length = 4
end

