-- ==== Sys2Proof/Laws/Asm.lean ====
section
/-! SUPPORT. What the assembler does with a line, said once. -/

namespace Sys2Proof.Machine

/-- A line becomes as many host operations as `labelTable` counts for it, so labels stand where it says. -/
theorem AsmLine.length_of_emit {table : List (Label × Nat)} {line : AsmLine} {ops : List HostOp}
    (h : line.emit table = some ops) : ops.length = line.size := by
  cases line with
  | wr r v => cases h; rfl
  | rd r name => cases h; rfl
  | command i =>
    by_cases hi : i.wellFormed = true
    · simp only [AsmLine.emit, if_pos hi, Option.some.injEq] at h
      rw [← h]; rfl
    · simp only [AsmLine.emit, if_neg hi, reduceCtorEq] at h
  | cmd w => cases h; rfl
  | label l => cases h; rfl
  | bnz name mask l =>
    obtain ⟨target, _, rfl⟩ := Option.map_eq_some_iff.mp h
    rfl
  | comment text => cases h; rfl
  | absorbValue n v => cases h
  | waitIdle t => cases h
  | readDigest d0 d1 d2 d3 => cases h
  | hash bytes t d0 d1 d2 d3 => cases h

/-- The assembler rejects an ABSORB whose count R87 gives no meaning (log entry 12). -/
theorem AsmLine.emit_command_illFormed {table : List (Label × Nat)} {i : Instr} (h : ¬i.WellFormed) :
    (AsmLine.command i).emit table = none := if_neg h

/-- A program in which a label stands on two lines is rejected (log entry 12). -/
theorem assemble_repeated_label {lines : List AsmLine}
    (h : ¬((labelTable 0 (expandFrom 0 lines)).map Prod.fst).Nodup) : assemble lines = none := if_neg h

end Sys2Proof.Machine
end

