-- ==== Sys2Proof/Laws/Driver.lean ====
section
/-! SUPPORT. The block partition and the chaining of the operation level over concatenations (43_driver.md R171,
R172). -/

namespace Sys2Proof.Machine

@[simp] theorem chain_nil (hs : Quad) : chain hs [] = hs := rfl

@[simp] theorem chain_cons (hs : Quad) (blk : Block) (rest : List Block) :
    chain hs (blk :: rest) = chain (compress hs blk) rest := rfl

theorem chain_append (hs : Quad) (xs ys : List Block) : chain hs (xs ++ ys) = chain (chain hs xs) ys := by
  induction xs generalizing hs with
  | nil => rfl
  | cons x xs ih => exact ih _

theorem blockAt_getElem (p : List Byte) (t j : Nat) (hj : j < 64) : (blockAt p t)[j] = p.getD (64 * t + j) 0 := by
  simp [blockAt]

/-- A block that lies in the first part of a sequence. -/
theorem blockAt_append_left {p q : List Byte} {t : Nat} (h : 64 * t + 64 ≤ p.length) :
    blockAt (p ++ q) t = blockAt p t := by
  ext1 j hj
  rw [blockAt_getElem _ _ _ hj, blockAt_getElem _ _ _ hj, List.getD_eq_getElem?_getD, List.getD_eq_getElem?_getD,
    List.getElem?_append_left (by omega)]

/-- A block that lies in the second part of a sequence whose first part is whole blocks. -/
theorem blockAt_append_right {p q : List Byte} (h : p.length % 64 = 0) (t : Nat) :
    blockAt (p ++ q) (p.length / 64 + t) = blockAt q t := by
  ext1 j hj
  rw [blockAt_getElem _ _ _ hj, blockAt_getElem _ _ _ hj, List.getD_eq_getElem?_getD, List.getD_eq_getElem?_getD,
    List.getElem?_append_right (by omega), show 64 * (p.length / 64 + t) + j - p.length = 64 * t + j by omega]

/-- The blocks of whole blocks followed by anything (R171). -/
theorem blocks_append {p q : List Byte} (h : p.length % 64 = 0) : blocks (p ++ q) = blocks p ++ blocks q := by
  have hlen : (p ++ q).length / 64 = p.length / 64 + q.length / 64 := by rw [List.length_append]; omega
  rw [blocks, hlen, List.range_add, List.map_append, List.map_map]
  refine congrArg₂ (· ++ ·) (List.map_congr_left fun t ht => ?_) (List.map_congr_left fun t _ => ?_)
  · rw [List.mem_range] at ht; exact blockAt_append_left (by omega)
  · exact blockAt_append_right h t

end Sys2Proof.Machine
end

