-- ==== Sys2Proof/Laws/State.lean ====
section
/-! SUPPORT. For every update of the state, one lemma per field, true by rfl: no later proof unfolds a record update. -/

namespace Sys2Proof.Machine

/-! `withCore` -/

@[simp] theorem State.withCore_core (s : State) (c : CoreState) : (s.withCore c).core = c := rfl
@[simp] theorem State.withCore_program (s : State) (c : CoreState) : (s.withCore c).program = s.program := rfl
@[simp] theorem State.withCore_hostPc (s : State) (c : CoreState) : (s.withCore c).hostPc = s.hostPc := rfl
@[simp] theorem State.withCore_reads (s : State) (c : CoreState) : (s.withCore c).reads = s.reads := rfl
@[simp] theorem State.withCore_turns (s : State) (c : CoreState) : (s.withCore c).turns = s.turns := rfl
@[simp] theorem State.withCore_epoch (s : State) (c : CoreState) : (s.withCore c).epoch = s.epoch := rfl
@[simp] theorem State.withCore_unit (s : State) (c : CoreState) : (s.withCore c).unit = s.unit := rfl

/-! `hostNext` -/

@[simp] theorem State.hostNext_core (s : State) : (s.hostNext).core = s.core := rfl
@[simp] theorem State.hostNext_program (s : State) : (s.hostNext).program = s.program := rfl
@[simp] theorem State.hostNext_hostPc (s : State) : (s.hostNext).hostPc = s.hostPc + 1 := rfl
@[simp] theorem State.hostNext_reads (s : State) : (s.hostNext).reads = s.reads := rfl
@[simp] theorem State.hostNext_turns (s : State) : (s.hostNext).turns = s.turns := rfl
@[simp] theorem State.hostNext_epoch (s : State) : (s.hostNext).epoch = s.epoch := rfl
@[simp] theorem State.hostNext_unit (s : State) : (s.hostNext).unit = s.unit := rfl

/-! `tick` -/

@[simp] theorem State.tick_core (s : State) : (s.tick).core = s.core := rfl
@[simp] theorem State.tick_program (s : State) : (s.tick).program = s.program := rfl
@[simp] theorem State.tick_hostPc (s : State) : (s.tick).hostPc = s.hostPc := rfl
@[simp] theorem State.tick_reads (s : State) : (s.tick).reads = s.reads := rfl
@[simp] theorem State.tick_turns (s : State) : (s.tick).turns = s.turns := rfl
@[simp] theorem State.tick_epoch (s : State) : (s.tick).epoch = s.epoch + 1 := rfl
@[simp] theorem State.tick_unit (s : State) : (s.tick).unit = s.unit := rfl

/-! `popTurn` -/

@[simp] theorem State.popTurn_core (s : State) : (s.popTurn).core = s.core := rfl
@[simp] theorem State.popTurn_program (s : State) : (s.popTurn).program = s.program := rfl
@[simp] theorem State.popTurn_hostPc (s : State) : (s.popTurn).hostPc = s.hostPc := rfl
@[simp] theorem State.popTurn_reads (s : State) : (s.popTurn).reads = s.reads := rfl
@[simp] theorem State.popTurn_turns (s : State) : (s.popTurn).turns = s.turns.tail := rfl
@[simp] theorem State.popTurn_epoch (s : State) : (s.popTurn).epoch = s.epoch := rfl
@[simp] theorem State.popTurn_unit (s : State) : (s.popTurn).unit = s.unit := rfl

/-! `placeHostLine` -/

@[simp] theorem State.placeHostLine_core (s : State) (op : HostOp) : (s.placeHostLine op).core = s.core := rfl
@[simp] theorem State.placeHostLine_program (s : State) (op : HostOp) : (s.placeHostLine op).program = s.program.take s.hostPc ++ op :: s.program.drop (s.hostPc + 1) := rfl
@[simp] theorem State.placeHostLine_hostPc (s : State) (op : HostOp) : (s.placeHostLine op).hostPc = (s.program.take s.hostPc).length := rfl
@[simp] theorem State.placeHostLine_reads (s : State) (op : HostOp) : (s.placeHostLine op).reads = s.reads := rfl
@[simp] theorem State.placeHostLine_turns (s : State) (op : HostOp) : (s.placeHostLine op).turns = s.turns := rfl
@[simp] theorem State.placeHostLine_epoch (s : State) (op : HostOp) : (s.placeHostLine op).epoch = s.epoch := rfl
@[simp] theorem State.placeHostLine_unit (s : State) (op : HostOp) : (s.placeHostLine op).unit = s.unit := rfl

/-! `setErr` -/

@[simp] theorem CoreState.setErr_h (code : Cause) (c : CoreState) : (c.setErr code).h = c.h := rfl
@[simp] theorem CoreState.setErr_w (code : Cause) (c : CoreState) : (c.setErr code).w = c.w := rfl
@[simp] theorem CoreState.setErr_rnd (code : Cause) (c : CoreState) : (c.setErr code).rnd = c.rnd := rfl
@[simp] theorem CoreState.setErr_buf (code : Cause) (c : CoreState) : (c.setErr code).buf = c.buf := rfl
@[simp] theorem CoreState.setErr_fill (code : Cause) (c : CoreState) : (c.setErr code).fill = c.fill := rfl
@[simp] theorem CoreState.setErr_len (code : Cause) (c : CoreState) : (c.setErr code).len = c.len := rfl
@[simp] theorem CoreState.setErr_pend (code : Cause) (c : CoreState) : (c.setErr code).pend = c.pend := rfl
@[simp] theorem CoreState.setErr_phase (code : Cause) (c : CoreState) : (c.setErr code).phase = c.phase := rfl
@[simp] theorem CoreState.setErr_ret (code : Cause) (c : CoreState) : (c.setErr code).ret = c.ret := rfl
@[simp] theorem CoreState.setErr_lenDone (code : Cause) (c : CoreState) : (c.setErr code).lenDone = c.lenDone := rfl
@[simp] theorem CoreState.setErr_done (code : Cause) (c : CoreState) : (c.setErr code).done = c.done := rfl
@[simp] theorem CoreState.setErr_err (code : Cause) (c : CoreState) : (c.setErr code).err = true := rfl
@[simp] theorem CoreState.setErr_ecause (code : Cause) (c : CoreState) : (c.setErr code).ecause = if c.err then c.ecause else code := rfl
@[simp] theorem CoreState.setErr_data (code : Cause) (c : CoreState) : (c.setErr code).data = c.data := rfl

/-! `initDigest` -/

@[simp] theorem CoreState.initDigest_h (c : CoreState) : (c.initDigest).h = iv := rfl
@[simp] theorem CoreState.initDigest_w (c : CoreState) : (c.initDigest).w = c.w := rfl
@[simp] theorem CoreState.initDigest_rnd (c : CoreState) : (c.initDigest).rnd = c.rnd := rfl
@[simp] theorem CoreState.initDigest_buf (c : CoreState) : (c.initDigest).buf = c.buf := rfl
@[simp] theorem CoreState.initDigest_fill (c : CoreState) : (c.initDigest).fill = 0 := rfl
@[simp] theorem CoreState.initDigest_len (c : CoreState) : (c.initDigest).len = 0 := rfl
@[simp] theorem CoreState.initDigest_pend (c : CoreState) : (c.initDigest).pend = [] := rfl
@[simp] theorem CoreState.initDigest_phase (c : CoreState) : (c.initDigest).phase = c.phase := rfl
@[simp] theorem CoreState.initDigest_ret (c : CoreState) : (c.initDigest).ret = c.ret := rfl
@[simp] theorem CoreState.initDigest_lenDone (c : CoreState) : (c.initDigest).lenDone = c.lenDone := rfl
@[simp] theorem CoreState.initDigest_done (c : CoreState) : (c.initDigest).done = false := rfl
@[simp] theorem CoreState.initDigest_err (c : CoreState) : (c.initDigest).err = false := rfl
@[simp] theorem CoreState.initDigest_ecause (c : CoreState) : (c.initDigest).ecause = .none := rfl
@[simp] theorem CoreState.initDigest_data (c : CoreState) : (c.initDigest).data = c.data := rfl

/-! `startCompress` -/

@[simp] theorem CoreState.startCompress_h (r : Ret) (c : CoreState) : (c.startCompress r).h = c.h := rfl
@[simp] theorem CoreState.startCompress_w (r : Ret) (c : CoreState) : (c.startCompress r).w = c.h := rfl
@[simp] theorem CoreState.startCompress_rnd (r : Ret) (c : CoreState) : (c.startCompress r).rnd = 0 := rfl
@[simp] theorem CoreState.startCompress_buf (r : Ret) (c : CoreState) : (c.startCompress r).buf = c.buf := rfl
@[simp] theorem CoreState.startCompress_fill (r : Ret) (c : CoreState) : (c.startCompress r).fill = c.fill := rfl
@[simp] theorem CoreState.startCompress_len (r : Ret) (c : CoreState) : (c.startCompress r).len = c.len := rfl
@[simp] theorem CoreState.startCompress_pend (r : Ret) (c : CoreState) : (c.startCompress r).pend = c.pend := rfl
@[simp] theorem CoreState.startCompress_phase (r : Ret) (c : CoreState) : (c.startCompress r).phase = .round := rfl
@[simp] theorem CoreState.startCompress_ret (r : Ret) (c : CoreState) : (c.startCompress r).ret = r := rfl
@[simp] theorem CoreState.startCompress_lenDone (r : Ret) (c : CoreState) : (c.startCompress r).lenDone = c.lenDone := rfl
@[simp] theorem CoreState.startCompress_done (r : Ret) (c : CoreState) : (c.startCompress r).done = c.done := rfl
@[simp] theorem CoreState.startCompress_err (r : Ret) (c : CoreState) : (c.startCompress r).err = c.err := rfl
@[simp] theorem CoreState.startCompress_ecause (r : Ret) (c : CoreState) : (c.startCompress r).ecause = c.ecause := rfl
@[simp] theorem CoreState.startCompress_data (r : Ret) (c : CoreState) : (c.startCompress r).data = c.data := rfl

/-! `placeByte` -/

@[simp] theorem CoreState.placeByte_h (c : CoreState) (hf : c.fill.val < 64) (b : Byte) (rest : List Byte) : (c.placeByte hf b rest).h = c.h := rfl
@[simp] theorem CoreState.placeByte_w (c : CoreState) (hf : c.fill.val < 64) (b : Byte) (rest : List Byte) : (c.placeByte hf b rest).w = c.w := rfl
@[simp] theorem CoreState.placeByte_rnd (c : CoreState) (hf : c.fill.val < 64) (b : Byte) (rest : List Byte) : (c.placeByte hf b rest).rnd = c.rnd := rfl
@[simp] theorem CoreState.placeByte_buf (c : CoreState) (hf : c.fill.val < 64) (b : Byte) (rest : List Byte) : (c.placeByte hf b rest).buf = c.buf.set c.fill.val b hf := rfl
@[simp] theorem CoreState.placeByte_fill (c : CoreState) (hf : c.fill.val < 64) (b : Byte) (rest : List Byte) : (c.placeByte hf b rest).fill = ⟨c.fill.val + 1, by omega⟩ := rfl
@[simp] theorem CoreState.placeByte_len (c : CoreState) (hf : c.fill.val < 64) (b : Byte) (rest : List Byte) : (c.placeByte hf b rest).len = c.len + 8 := rfl
@[simp] theorem CoreState.placeByte_pend (c : CoreState) (hf : c.fill.val < 64) (b : Byte) (rest : List Byte) : (c.placeByte hf b rest).pend = rest := rfl
@[simp] theorem CoreState.placeByte_phase (c : CoreState) (hf : c.fill.val < 64) (b : Byte) (rest : List Byte) : (c.placeByte hf b rest).phase = c.phase := rfl
@[simp] theorem CoreState.placeByte_ret (c : CoreState) (hf : c.fill.val < 64) (b : Byte) (rest : List Byte) : (c.placeByte hf b rest).ret = c.ret := rfl
@[simp] theorem CoreState.placeByte_lenDone (c : CoreState) (hf : c.fill.val < 64) (b : Byte) (rest : List Byte) : (c.placeByte hf b rest).lenDone = c.lenDone := rfl
@[simp] theorem CoreState.placeByte_done (c : CoreState) (hf : c.fill.val < 64) (b : Byte) (rest : List Byte) : (c.placeByte hf b rest).done = c.done := rfl
@[simp] theorem CoreState.placeByte_err (c : CoreState) (hf : c.fill.val < 64) (b : Byte) (rest : List Byte) : (c.placeByte hf b rest).err = c.err := rfl
@[simp] theorem CoreState.placeByte_ecause (c : CoreState) (hf : c.fill.val < 64) (b : Byte) (rest : List Byte) : (c.placeByte hf b rest).ecause = c.ecause := rfl
@[simp] theorem CoreState.placeByte_data (c : CoreState) (hf : c.fill.val < 64) (b : Byte) (rest : List Byte) : (c.placeByte hf b rest).data = c.data := rfl

/-! `fin1Place` -/

@[simp] theorem CoreState.fin1Place_h (c : CoreState) (hf : c.fill.val < 64) : (c.fin1Place hf).h = c.h := rfl
@[simp] theorem CoreState.fin1Place_w (c : CoreState) (hf : c.fill.val < 64) : (c.fin1Place hf).w = c.w := rfl
@[simp] theorem CoreState.fin1Place_rnd (c : CoreState) (hf : c.fill.val < 64) : (c.fin1Place hf).rnd = c.rnd := rfl
@[simp] theorem CoreState.fin1Place_buf (c : CoreState) (hf : c.fill.val < 64) : (c.fin1Place hf).buf = fin1Block c.buf c.fill.val hf c.len := rfl
@[simp] theorem CoreState.fin1Place_fill (c : CoreState) (hf : c.fill.val < 64) : (c.fin1Place hf).fill = 64 := rfl
@[simp] theorem CoreState.fin1Place_len (c : CoreState) (hf : c.fill.val < 64) : (c.fin1Place hf).len = c.len := rfl
@[simp] theorem CoreState.fin1Place_pend (c : CoreState) (hf : c.fill.val < 64) : (c.fin1Place hf).pend = c.pend := rfl
@[simp] theorem CoreState.fin1Place_phase (c : CoreState) (hf : c.fill.val < 64) : (c.fin1Place hf).phase = c.phase := rfl
@[simp] theorem CoreState.fin1Place_ret (c : CoreState) (hf : c.fill.val < 64) : (c.fin1Place hf).ret = c.ret := rfl
@[simp] theorem CoreState.fin1Place_lenDone (c : CoreState) (hf : c.fill.val < 64) : (c.fin1Place hf).lenDone = decide (c.fill.val ≤ 55) := rfl
@[simp] theorem CoreState.fin1Place_done (c : CoreState) (hf : c.fill.val < 64) : (c.fin1Place hf).done = c.done := rfl
@[simp] theorem CoreState.fin1Place_err (c : CoreState) (hf : c.fill.val < 64) : (c.fin1Place hf).err = c.err := rfl
@[simp] theorem CoreState.fin1Place_ecause (c : CoreState) (hf : c.fill.val < 64) : (c.fin1Place hf).ecause = c.ecause := rfl
@[simp] theorem CoreState.fin1Place_data (c : CoreState) (hf : c.fill.val < 64) : (c.fin1Place hf).data = c.data := rfl

/-! `stepAddback` -/

@[simp] theorem stepAddback_h (c : CoreState) : (stepAddback c).h = addBack c.h c.w := rfl
@[simp] theorem stepAddback_w (c : CoreState) : (stepAddback c).w = c.w := rfl
@[simp] theorem stepAddback_rnd (c : CoreState) : (stepAddback c).rnd = c.rnd := rfl
@[simp] theorem stepAddback_buf (c : CoreState) : (stepAddback c).buf = c.buf := rfl
@[simp] theorem stepAddback_fill (c : CoreState) : (stepAddback c).fill = 0 := rfl
@[simp] theorem stepAddback_len (c : CoreState) : (stepAddback c).len = c.len := rfl
@[simp] theorem stepAddback_pend (c : CoreState) : (stepAddback c).pend = c.pend := rfl
@[simp] theorem stepAddback_phase (c : CoreState) : (stepAddback c).phase = c.ret.phase := rfl
@[simp] theorem stepAddback_ret (c : CoreState) : (stepAddback c).ret = c.ret := rfl
@[simp] theorem stepAddback_lenDone (c : CoreState) : (stepAddback c).lenDone = c.lenDone := rfl
@[simp] theorem stepAddback_done (c : CoreState) : (stepAddback c).done = c.done := rfl
@[simp] theorem stepAddback_err (c : CoreState) : (stepAddback c).err = c.err := rfl
@[simp] theorem stepAddback_ecause (c : CoreState) : (stepAddback c).ecause = c.ecause := rfl
@[simp] theorem stepAddback_data (c : CoreState) : (stepAddback c).data = c.data := rfl

/-! `applyReset` -/

@[simp] theorem applyReset_core (s : State) : (applyReset s).core = CoreState.reset := rfl
@[simp] theorem applyReset_program (s : State) : (applyReset s).program = s.program := rfl
@[simp] theorem applyReset_hostPc (s : State) : (applyReset s).hostPc = s.hostPc := rfl
@[simp] theorem applyReset_reads (s : State) : (applyReset s).reads = s.reads := rfl
@[simp] theorem applyReset_turns (s : State) : (applyReset s).turns = s.turns := rfl
@[simp] theorem applyReset_epoch (s : State) : (applyReset s).epoch = s.epoch + 1 := rfl
@[simp] theorem applyReset_unit (s : State) : (applyReset s).unit = s.unit := rfl

/-- A state is its core and its environment. -/
theorem State.withCore_self (s : State) : s.withCore s.core = s := rfl

@[simp] theorem State.withCore_withCore (s : State) (c d : CoreState) : (s.withCore c).withCore d = s.withCore d := rfl

end Sys2Proof.Machine
end

