-- ==== Sys2Proof/Laws/Ops.lean ====
section
/-! SUPPORT. What each shared operation does, said once. -/

namespace Sys2Proof.Machine

/-! ### Outcomes -/

@[simp] theorem nextOf_next {σ φ ρ : Type} (s : σ) : nextOf (.next s : Host.Outcome σ φ ρ) = some s := rfl
@[simp] theorem nextOf_fault {σ φ ρ : Type} (f : φ) : nextOf (.fault f : Host.Outcome σ φ ρ) = none := rfl
@[simp] theorem nextOf_refused {σ φ ρ : Type} (r : ρ) : nextOf (.refused r : Host.Outcome σ φ ρ) = none := rfl

theorem nextOf_eq_some {σ φ ρ : Type} {o : Host.Outcome σ φ ρ} {s : σ} : nextOf o = some s ↔ o = .next s := by
  cases o <;> simp

theorem mapNext_eq_next {σ τ φ ρ : Type} {f : σ → τ} {o : Host.Outcome σ φ ρ} {t : τ} :
    mapNext f o = .next t ↔ ∃ s, o = .next s ∧ f s = t := by
  cases o <;> simp [mapNext]

/-! ### The block buffer -/

theorem zeroRange_getElem (buf : Block) (lo hi j : Nat) (hj : j < 64) :
    (zeroRange buf lo hi)[j] = if lo ≤ j ∧ j < hi then 0x00 else buf[j] := by
  simp [zeroRange]

theorem putLength_getElem (buf : Block) (len : BitVec 64) (j : Nat) (hj : j < 64) :
    (putLength buf len)[j] = if 56 ≤ j then lenByte len (j - 56) else buf[j] := by
  simp [putLength]

/-- FIN1's marker and zeros (R201). -/
theorem markerBlock_getElem (buf : Block) (fill : Nat) (hf : fill < 64) (j : Nat) (hj : j < 64) :
    (markerBlock buf fill hf)[j] = if j < fill then buf[j] else if j = fill then 0x80 else 0x00 := by
  rw [markerBlock, zeroRange_getElem]
  rcases Nat.lt_trichotomy j fill with h | h | h
  · rw [if_neg (by omega), if_pos h, Vector.getElem_set_ne _ _ (by omega)]
  · subst h; simp
  · rw [if_pos ⟨h, hj⟩, if_neg (by omega), if_neg (by omega)]

/-- The buffer that FIN1 leaves, byte by byte (R201). -/
theorem fin1Block_getElem (buf : Block) (fill : Nat) (hf : fill < 64) (len : BitVec 64) (j : Nat) (hj : j < 64) :
    (fin1Block buf fill hf len)[j] =
      if j < fill then buf[j] else if j = fill then 0x80
      else if fill ≤ 55 ∧ 56 ≤ j then lenByte len (j - 56) else 0x00 := by
  unfold fin1Block
  by_cases h : fill ≤ 55
  · rw [if_pos h, putLength_getElem _ _ _ hj, markerBlock_getElem _ _ _ _ hj]
    by_cases h' : 56 ≤ j
    · rw [if_pos h', if_neg (by omega), if_neg (by omega), if_pos ⟨h, h'⟩]
    · rw [if_neg h', if_neg (fun h'' : fill ≤ 55 ∧ 56 ≤ j => h' h''.2)]
  · rw [if_neg h, markerBlock_getElem _ _ _ _ hj, if_neg (fun h'' : fill ≤ 55 ∧ 56 ≤ j => h h''.1)]

/-- FIN1 keeps only the bytes below FILL of the old buffer (R127). -/
theorem fin1Block_congr (b b' : Block) (fill : Nat) (hf : fill < 64) (len : BitVec 64)
    (h : ∀ (j : Nat) (hj : j < 64), j < fill → b[j] = b'[j]) : fin1Block b fill hf len = fin1Block b' fill hf len := by
  ext j hj
  rw [fin1Block_getElem _ _ _ _ _ hj, fin1Block_getElem _ _ _ _ _ hj]
  split
  · rw [h j hj ‹_›]
  · rfl

/-- FIN2's length block (R202): it keeps no byte of the old buffer. -/
theorem lengthBlock_getElem (buf : Block) (len : BitVec 64) (j : Nat) (hj : j < 64) :
    (lengthBlock buf len)[j] = if j < 56 then 0x00 else lenByte len (j - 56) := by
  rw [lengthBlock, putLength_getElem, zeroRange_getElem]
  split <;> split <;> simp_all; omega

theorem lengthBlock_congr (b b' : Block) (len : BitVec 64) : lengthBlock b len = lengthBlock b' len := by
  ext j hj; rw [lengthBlock_getElem _ _ _ hj, lengthBlock_getElem _ _ _ hj]

theorem placeByte_getElem (c : CoreState) (hf : c.fill.val < 64) (b : Byte) (rest : List Byte) (j : Nat) (hj : j < 64) :
    (c.placeByte hf b rest).buf[j] = if j = c.fill.val then b else c.buf[j] := by
  simp only [CoreState.placeByte_buf, Vector.getElem_set, eq_comm]

theorem blockWords_getElem (b : Block) (j : Nat) (hj : j < 16) :
    (blockWords b)[j] = le32 b[4 * j] b[4 * j + 1] b[4 * j + 2] b[4 * j + 3] := by
  simp [blockWords, blockWord]

/-! ### Operands and status -/

@[simp] theorem dataBytes_length (data : Word) (n : Nat) : (dataBytes data n).length = min n 4 := by
  simp [dataBytes, bytes32]

theorem busy_eq_true {c : CoreState} : c.busy = true ↔ c.phase ≠ .idle := by simp [CoreState.busy]

theorem busy_eq_false {c : CoreState} : c.busy = false ↔ c.phase = .idle := by simp [CoreState.busy]

/-- With BUSY = 0 the free values of busy reads do not enter (R38-R40). -/
theorem settledWord_of_idle {s : State} (h : s.core.phase = .idle) (r : Reg) (v : Word) : settledWord s r v = v := by
  simp [settledWord, busy_eq_false.mpr h]

theorem settledFill_of_idle {s : State} (h : s.core.phase = .idle) : settledFill s = s.core.fill := by
  simp [settledFill, busy_eq_false.mpr h]

/-! ### The window -/

theorem register_ofReg (r : Reg) : (BusAccess.ofReg r).register = .ok r := by cases r <;> decide

@[simp] theorem commandWord_ofReg_cmd (v : Word) : (HostOp.wr (BusAccess.ofReg .cmd) v).commandWord = some v := by
  simp [HostOp.commandWord, register_ofReg]

end Sys2Proof.Machine
end

