-- ==== Sys2Proof/Laws/PerInstr.lean ====
section
/-! SUPPORT. Statements about every instruction as syntax, one lemma per constructor. -/

namespace Sys2Proof.Laws

/-- Every well-formed command encodes to a legal word (R81, R83). -/
def EncodesLegal.Statement (i : Instr) : Prop := i.WellFormed → legal (encode i) = true

theorem EncodesLegal.nop : EncodesLegal.Statement .nop := by
  intro _; decide

theorem EncodesLegal.init : EncodesLegal.Statement .init := by
  intro _; decide

theorem EncodesLegal.absorb (n : Nat) : EncodesLegal.Statement (.absorb n) := by
  intro h
  simp only [Instr.WellFormed, Instr.wellFormed, Bool.and_eq_true, decide_eq_true_eq] at h
  obtain ⟨h1, h4⟩ := h
  interval_cases n <;> decide

theorem EncodesLegal.final : EncodesLegal.Statement .final := by
  intro _; decide

end Sys2Proof.Laws
end

