-- ==== Sys2Proof/Laws/Step.lean ====
section
/-! SUPPORT. What the commands, the core's step, the host's line and the machine's step can do, each said once: later
proofs cite these and unfold none of them. -/

namespace Sys2Proof.Machine

/-- Everything a command can do at acceptance (R192-R196). -/
theorem exec_cases {i : Instr} {s t : State} (h : exec i s = .next t) :
    (i = .nop ∧ t = s) ∨
    (i = .init ∧ t = s.withCore s.core.initDigest) ∨
    (∃ n, i = .absorb n ∧ s.core.done = false ∧
      t = s.withCore { s.core with pend := dataBytes s.core.data n, phase := .absorb }) ∨
    (i = .final ∧ s.core.done = false ∧ t = s.withCore { s.core with phase := .fin1 }) ∨
    (((∃ n, i = .absorb n) ∨ i = .final) ∧ s.core.done = true ∧ t = s.withCore (s.core.setErr .sequenceError)) := by
  cases i with
  | nop => exact .inl ⟨rfl, by simpa [exec, execNop] using h.symm⟩
  | init => exact .inr (.inl ⟨rfl, by simpa [exec, execInit] using h.symm⟩)
  | absorb n =>
    cases hd : s.core.done with
    | false => exact .inr (.inr (.inl ⟨n, rfl, rfl, by simpa [exec, execAbsorb, unlessDone, hd] using h.symm⟩))
    | true =>
      exact .inr (.inr (.inr (.inr ⟨.inl ⟨n, rfl⟩, rfl, by simpa [exec, execAbsorb, unlessDone, hd] using h.symm⟩)))
  | final =>
    cases hd : s.core.done with
    | false => exact .inr (.inr (.inr (.inl ⟨rfl, rfl, by simpa [exec, execFinal, unlessDone, hd] using h.symm⟩)))
    | true => exact .inr (.inr (.inr (.inr ⟨.inr rfl, rfl, by simpa [exec, execFinal, unlessDone, hd] using h.symm⟩)))

/-- Everything accepting a word can do: it always answers, and only the core changes (R196). -/
theorem accept_cases {c : Word} {s t : State} (h : accept c s = .next t) :
    (∃ i, decode c = .ok i ∧ exec i s = .next t) ∨
    (∃ e, decode c = .error e ∧ t = s.withCore (s.core.setErr .illegalCommand)) := by
  unfold accept at h
  cases hd : decode c with
  | ok i => rw [hd] at h; exact .inl ⟨i, rfl, h⟩
  | error e => rw [hd] at h; exact .inr ⟨e, rfl, by simpa using h.symm⟩

theorem exec_next (i : Instr) (s : State) : ∃ c, exec i s = .next (s.withCore c) := by
  cases i with
  | nop => exact ⟨s.core, rfl⟩
  | init => exact ⟨_, rfl⟩
  | absorb n => exact ⟨_, rfl⟩
  | final => exact ⟨_, rfl⟩

theorem accept_next (c : Word) (s : State) : ∃ d, accept c s = .next (s.withCore d) := by
  unfold accept
  cases decode c with
  | ok i => exact exec_next i s
  | error e => exact ⟨_, rfl⟩

/-- Everything a core step can do (R197-R202). -/
theorem coreStep_cases {c d : CoreState} (h : coreStep c = .next d) :
    (c.phase = .idle ∧ d = c) ∨
    (c.phase = .absorb ∧ c.fill.val = 64 ∧ d = c.startCompress .absorb) ∨
    (∃ hf b rest, c.phase = .absorb ∧ c.pend = b :: rest ∧ d = c.placeByte hf b rest) ∨
    (c.phase = .absorb ∧ c.fill.val < 64 ∧ c.pend = [] ∧ d = { c with phase := .idle }) ∨
    (c.phase = .round ∧ c.rnd = 63 ∧ d = { c with w := md5Round c.rnd c.w (blockWords c.buf), phase := .addback }) ∨
    (c.phase = .round ∧ c.rnd ≠ 63 ∧ d = { c with w := md5Round c.rnd c.w (blockWords c.buf), rnd := c.rnd + 1 }) ∨
    (c.phase = .addback ∧ d = stepAddback c) ∨
    (∃ hf, c.phase = .fin1 ∧ d = (c.fin1Place hf).startCompress .fin2) ∨
    (c.phase = .fin2 ∧ c.lenDone = true ∧ d = { c with done := true, phase := .idle }) ∨
    (c.phase = .fin2 ∧ c.lenDone = false ∧
      d = CoreState.startCompress .fin2 { c with buf := lengthBlock c.buf c.len, lenDone := true, fill := 64 }) := by
  unfold coreStep at h
  cases hp : c.phase <;> simp only [hp, Host.Outcome.next.injEq] at h
  · exact .inl ⟨rfl, h.symm⟩
  · by_cases hf : c.fill.val < 64
    · cases hq : c.pend with
      | nil => simp only [stepAbsorb, hf, hq, dite_true] at h; simp_all
      | cons b rest => simp only [stepAbsorb, hf, hq, dite_true] at h; simp_all
    · have : c.fill.val = 64 := by omega
      simp only [stepAbsorb, hf, dite_false] at h
      simp_all
  · by_cases hr : c.rnd = 63
    · simp only [stepRound, hr, if_true] at h; simp_all
    · simp only [stepRound, hr, if_false] at h; simp_all
  · simp_all
  · unfold stepFin1 at h
    split at h
    · simp_all
    · cases h
  · cases hl : c.lenDone <;> simp only [stepFin2, hl, if_true] at h <;> simp_all

/-- A core step faults only in FIN1 with a full buffer, and is never refused (log entry 7). -/
theorem coreStep_answers (c : CoreState) (h : c.phase = .fin1 → c.fill.val < 64) : ∃ d, coreStep c = .next d := by
  unfold coreStep
  cases hp : c.phase <;> simp only [Host.Outcome.next.injEq, exists_eq']
  simp [stepFin1, h hp]

/-- Everything one line of the host can do (R87, R190, R207, R208). -/
theorem hostStep_cases {op : HostOp} {s t : State} (h : hostStep op s = .next t) :
    (∃ a v, op = .wr a v ∧ a.register = .ok .cmd ∧ accept v s.hostNext.tick = .next t) ∨
    (∃ a v r, op = .wr a v ∧ a.register = .ok r ∧ r ≠ .cmd ∧ t = s.hostNext.tick.withCore (plainWrite r v s.core)) ∨
    (∃ a name r, op = .rd a name ∧ a.register = .ok r ∧
      t = { s.hostNext with reads := (name, regRead r s) :: s.reads }) ∨
    (∃ name mask target v, op = .bnz name mask target ∧ s.nameValue name = some v ∧
      t = if v &&& mask ≠ 0 then { s with hostPc := target } else s.hostNext) := by
  cases op with
  | wr a v =>
    cases hr : a.register with
    | error e => simp [hostStep, hr] at h
    | ok r =>
      by_cases hc : r = .cmd
      · subst hc; exact .inl ⟨a, v, rfl, hr, by simpa [hostStep, hr, regWrite] using h⟩
      · refine .inr (.inl ⟨a, v, r, rfl, hr, hc, ?_⟩)
        cases r <;> simp_all [hostStep, regWrite]
  | rd a name =>
    cases hr : a.register with
    | error e => simp [hostStep, hr] at h
    | ok r => exact .inr (.inr (.inl ⟨a, name, r, rfl, hr, by simpa [hostStep, hr] using h.symm⟩))
  | bnz name mask target =>
    cases hv : s.nameValue name with
    | none => simp [hostStep, hv] at h
    | some v =>
      refine .inr (.inr (.inr ⟨name, mask, target, v, rfl, hv, ?_⟩))
      simp only [hostStep, hv, Host.Outcome.next.injEq] at h
      exact h.symm

theorem hostMove_eq_some {s : State} {op : HostOp} :
    s.hostMove = some op ↔ s.hostLine = some op ∧ op.held s.core = false := by
  unfold State.hostMove
  cases s.hostLine with
  | none => simp
  | some q =>
    cases hq : q.held s.core <;> simp [hq]
    · rintro rfl; exact hq
    · rintro rfl; exact hq

/-- The host's turn comes only with a line that is not held (R190). -/
theorem nextAgent_host {s : State} (h : nextAgent s = some .host) :
    ∃ op, s.hostLine = some op ∧ op.held s.core = false := by
  cases hm : s.hostMove with
  | some op => exact ⟨op, hostMove_eq_some.mp hm⟩
  | none =>
    exfalso; revert h
    unfold nextAgent hostFirst coreFirst
    rw [hm]
    rcases s.turns with _ | ⟨_ | _ | _, _⟩ <;> cases s.core.busy <;> simp

/-- The core's turn comes only while it is busy (R197). -/
theorem nextAgent_core {s : State} (h : nextAgent s = some .core) : s.core.phase ≠ .idle := by
  rw [← busy_eq_true]
  by_contra hb
  simp only [Bool.not_eq_true] at hb
  revert h
  unfold nextAgent hostFirst coreFirst
  rw [hb]
  rcases s.turns with _ | ⟨_ | _ | _, _⟩ <;> cases s.hostMove <;> simp

/-- The platform's turn comes only when the schedule says so (R250). -/
theorem nextAgent_reset {s : State} (h : nextAgent s = some .reset) : s.turns.head? = some .reset := by
  revert h
  unfold nextAgent hostFirst coreFirst
  rcases s.turns with _ | ⟨_ | _ | _, _⟩ <;> cases s.hostMove <;> cases s.core.busy <;> simp

/-- Everything a step of the machine can do (R206). -/
theorem step_cases {s t : State} (h : step s = .next t) :
    (nextAgent s = some .reset ∧ t = applyReset s.popTurn) ∨
    (nextAgent s = some .core ∧ s.core.phase ≠ .idle ∧
      ∃ c, coreStep s.core = .next c ∧ t = (s.popTurn.withCore c).tick) ∨
    (nextAgent s = some .host ∧
      ∃ op, s.hostLine = some op ∧ op.held s.core = false ∧ hostStep op s.popTurn = .next t) ∨
    (nextAgent s = none ∧ t = s.popTurn) := by
  unfold step at h
  cases ha : nextAgent s with
  | none => rw [ha] at h; exact .inr (.inr (.inr ⟨rfl, by simpa [agentStep] using h.symm⟩))
  | some a =>
    rw [ha] at h
    cases a with
    | reset => exact .inl ⟨rfl, by simpa [agentStep] using h.symm⟩
    | core =>
      obtain ⟨c, hc, ht⟩ := mapNext_eq_next.mp (show coreMove s.popTurn = .next t from h)
      exact .inr (.inl ⟨rfl, nextAgent_core ha, c, hc, ht.symm⟩)
    | host =>
      obtain ⟨op, hl, hh⟩ := nextAgent_host ha
      refine .inr (.inr (.inl ⟨rfl, op, hl, hh, ?_⟩))
      have hl' : s.popTurn.hostLine = some op := hl
      simpa [agentStep, hostMoveStep, hl'] using h

/-- No step changes the number of the instance (log entry 2). -/
theorem step_unit {s t : State} (h : step s = .next t) : t.unit = s.unit := by
  rcases step_cases h with ⟨_, rfl⟩ | ⟨_, _, c, _, rfl⟩ | ⟨_, op, _, _, ho⟩ | ⟨_, rfl⟩
  · rfl
  · rfl
  · rcases hostStep_cases ho with ⟨_, v, _, _, ha⟩ | ⟨_, _, _, _, _, _, rfl⟩ | ⟨_, _, _, _, _, rfl⟩ | ⟨_, _, _, _, _, _, rfl⟩
    · obtain ⟨d, hd⟩ := accept_next v s.popTurn.hostNext.tick
      rw [hd, Host.Outcome.next.injEq] at ha
      rw [← ha]; rfl
    · rfl
    · rfl
    · split <;> rfl
  · rfl

/-- A command is accepted only while the core is IDLE (R190). -/
theorem held_commandWord {op : HostOp} {c : CoreState} {w : Word} (hh : op.held c = false)
    (hw : op.commandWord = some w) : c.phase = .idle := by
  rw [← busy_eq_false]
  simpa [HostOp.held, hw] using hh

end Sys2Proof.Machine
end

