-- ==== Sys2Proof/Laws/Run.lean ====
section
/-! SUPPORT. Runs of the core alone and runs of the machine. -/

namespace Sys2Proof.Machine

@[simp] theorem coreRun_zero (c : CoreState) : coreRun 0 c = .next c := rfl

theorem coreRun_succ {c d : CoreState} (h : coreStep c = .next d) (k : Nat) : coreRun (k + 1) c = coreRun k d := by
  rw [coreRun, h]

/-- A run of `a` steps followed by one of `b` steps is a run of `a + b` steps. -/
theorem coreRun_add {a : Nat} {c d : CoreState} (h : coreRun a c = .next d) (b : Nat) :
    coreRun (a + b) c = coreRun b d := by
  induction a generalizing c with
  | zero => rw [coreRun_zero, Host.Outcome.next.injEq] at h; rw [h, Nat.zero_add]
  | succ a ih =>
    rw [Nat.add_right_comm]
    cases hc : coreStep c with
    | next e => rw [coreRun_succ hc] at h ⊢; exact ih h
    | fault f => simp [coreRun, hc] at h
    | refused r => simp [coreRun, hc] at h

@[simp] theorem machineRun_zero (s : State) : machineRun 0 s = .next s := rfl

theorem machineRun_succ {s t : State} (h : step s = .next t) (k : Nat) : machineRun (k + 1) s = machineRun k t := by
  rw [machineRun, h]

/-- `machineRun` is the host's run of the machine. -/
theorem machineRun_eq_core_run (k : Nat) (s : State) : machineRun k s = Sys2Proof.core.run k s := by
  induction k generalizing s with
  | zero => rfl
  | succ k ih =>
    cases hc : Sys2Proof.core.step s with
    | next t =>
      rw [machineRun_succ hc, ih t]
      simp only [Host.Core.run, hc]; rfl
    | fault f =>
      have hc' : step s = .fault f := hc
      simp only [machineRun, hc', Host.Core.run, hc]; rfl
    | refused r =>
      have hc' : step s = .refused r := hc
      simp only [machineRun, hc', Host.Core.run, hc]; rfl

/-- `k` steps of the machine with its absorbed message, if none of them stops. -/
def absorbedRun : (k : Nat) → List Byte → State → Option (List Byte × State)
  | 0, m, s => some (m, s)
  | k + 1, m, s =>
    match step s with
    | .next t => absorbedRun k (s.messageAfter m) t
    | .fault _ => none
    | .refused _ => none

/-- Such a run ends in a state with the message it counts (R209). -/
theorem Absorbed.run {k : Nat} {m m' : List Byte} {s t : State} (hs : Absorbed m s)
    (h : absorbedRun k m s = some (m', t)) : Absorbed m' t := by
  induction k generalizing m s with
  | zero => cases h; exact hs
  | succ k ih =>
    cases hc : step s with
    | next s' => rw [absorbedRun, hc] at h; exact ih (.afterStep m s s' hs hc) h
    | fault f => rw [absorbedRun, hc] at h; cases h
    | refused r => rw [absorbedRun, hc] at h; cases h

end Sys2Proof.Machine
end

