-- ==== Sys2Proof/Tests/Slice0.lean ====
section
/-! SUPPORT. Tests of the model (each expected value comes from spec/; the comment names it), the smoke tests of
WellFormed, and for every statement with hypotheses a named witness that meets them. -/

namespace Sys2Proof.Tests

open Sys2Proof.Machine

/-! ### Helpers -/

/-- A machine with the given core, host program and schedule. -/
def machine (c : CoreState) (ops : List HostOp) (ts : List Turn) : State :=
  { State.reset with core := c, program := ops, turns := ts }

/-- A CMD write. -/
def cmdWrite (w : Word) : HostOp := .wr (BusAccess.ofReg .cmd) w

/-- The reset core with `DATA = 0x44332211`. -/
def coreData : CoreState := { CoreState.reset with data := 0x44332211 }

/-- A finished core (DONE = 1). -/
def coreDone : CoreState := { CoreState.reset with done := true }

/-- A core with an error of cause 1. -/
def coreErr : CoreState := { CoreState.reset with err := true, ecause := .illegalCommand }

/-- A core in a phase, with FILL and PEND. -/
def coreIn (p : Phase) (fill : Fin 65) (pend : List Byte) : CoreState :=
  { CoreState.reset with phase := p, fill := fill, pend := pend, len := 0x1b8 }

/-! ### WellFormed smoke: the ill-formed terms are refused -/

theorem test_wellFormed_refuses_absorb_zero : (Instr.absorb 0).wellFormed = false := by decide
theorem test_wellFormed_refuses_absorb_five : (Instr.absorb 5).wellFormed = false := by decide
theorem test_wellFormed_accepts_absorb_bounds :
    (Instr.absorb 1).wellFormed = true ∧ (Instr.absorb 4).wellFormed = true := by decide

/-! ### Decoding: words written out from 30_encoding.md R80, R81 and 95_test_vectors.md V9 -/

theorem test_decode_nop : decode 0b00000000000000000000000000000000 = .ok .nop := by decide
theorem test_decode_init : decode 0b00000000000000000000000000000001 = .ok .init := by decide
theorem test_decode_absorb_1 : decode 0b00000000000000000000000000000010 = .ok (.absorb 1) := by decide
theorem test_decode_absorb_4 : decode 0b00000000000000000000000000110010 = .ok (.absorb 4) := by decide
theorem test_decode_final : decode 0b00000000000000000000000000000011 = .ok .final := by decide
theorem test_decode_reserved_opcodes :
    decode 0x00000004 = .error .reservedOpcode ∧ decode 0x0000000f = .error .reservedOpcode := by decide
theorem test_decode_count_bits :
    decode 0x00000010 = .error .countBits ∧ decode 0x00000013 = .error .countBits ∧
      decode 0x00000021 = .error .countBits := by decide
theorem test_decode_reserved_bits :
    decode 0x00000042 = .error .reservedBits ∧ decode 0x80000002 = .error .reservedBits ∧
      decode 0xffffffff = .error .reservedBits := by decide
theorem test_decodeTableWord :
    decodeTableWord 32 0x22 = some (.absorb 3) ∧ decodeTableWord 32 0x80000000 = none := by decide

/-! ### Commands: one step each (95_test_vectors.md V9, P4) -/


theorem test_nop_after_done : (nextOf (exec .nop (machine coreDone [] []))).map (regRead .status) = some 0x00000002 := by
  decide

/-- P4: INIT clears DONE, ERR and ECAUSE; DIGEST0 reads the IV word again. -/
theorem test_init_clears : (nextOf (exec .init (machine { coreErr with done := true, h := ⟨1, 2, 3, 4⟩ } [] []))).map
    (fun s => (regRead .status s, regRead .digest0 s)) = some (0x00000000, 0x67452301) := by decide

/-- V9: `wr DATA, 0x44332211`, ABSORB 4 takes 11 22 33 44 in that order. -/
theorem test_absorb_4_bytes : (nextOf (exec (.absorb 4) (machine coreData [] []))).map (fun s => s.core.pend) =
    some [0x11, 0x22, 0x33, 0x44] := by decide

/-- V9: ABSORB 2 takes 11 22 only. -/
theorem test_absorb_2_bytes : (nextOf (exec (.absorb 2) (machine coreData [] []))).map
    (fun s => (s.core.pend, s.core.phase)) = some ([0x11, 0x22], .absorb) := by decide

/-- P4: ABSORB while DONE = 1 gives STATUS 00000026. -/
theorem test_absorb_after_done :
    (nextOf (exec (.absorb 4) (machine coreDone [] []))).map (regRead .status) = some 0x00000026 := by decide

theorem test_final_starts : (nextOf (exec .final (machine coreData [] []))).map (fun s => s.core.phase) = some .fin1 := by
  decide

/-- P4: FINAL while DONE = 1 and ECAUSE = 1 keeps the first cause: STATUS 00000016. -/
theorem test_final_keeps_first_cause : (nextOf (exec .final (machine { coreErr with done := true } [] []))).map
    (regRead .status) = some 0x00000016 := by decide

/-- V9: a reserved opcode gives STATUS 00000014. -/
theorem test_illegal_word : (nextOf (accept 0x00000004 (machine coreData [] []))).map (regRead .status) = some 0x00000014 := by
  decide

/-! ### The core's steps -/

/-- R198: the first byte of PEND goes to BUF[FILL]; LEN grows by 8. -/
theorem test_step_absorb_places : (nextOf (coreStep (coreIn .absorb 63 [0x61, 0x62]))).map
    (fun c => (c.buf[63], c.fill, c.len, c.pend)) = some (0x61, 64, 0x1c0, [0x62]) := by decide

/-- R198: at FILL = 64 the compression starts. -/
theorem test_step_absorb_compresses : (nextOf (coreStep (coreIn .absorb 64 [0x62]))).map
    (fun c => (c.phase, c.w, c.ret, c.rnd)) = some (.round, iv, .absorb, 0) := by decide

/-- V1.4: `Pad(0x61 × 55)` ends `80 b8 01 00 ..`. -/
theorem test_step_fin1_at_55 : (nextOf (coreStep (coreIn .fin1 55 []))).map
    (fun c => (c.buf[55], c.buf[56], c.buf[57], c.buf[58], c.lenDone)) = some (0x80, 0xb8, 0x01, 0x00, true) := by decide

/-- P3: at FILL = 56 FIN1 puts 80 and zeros into BUF[56..63] and sets LENDONE = 0. -/
theorem test_step_fin1_at_56 : (nextOf (coreStep (coreIn .fin1 56 []))).map
    (fun c => (c.buf[56], c.buf[57], c.buf[63], c.lenDone, c.fill)) = some (0x80, 0x00, 0x00, false, 64) := by decide

/-- R202: with LENDONE = 0 the length block follows. -/
theorem test_step_fin2_length_block : (nextOf (coreStep (coreIn .fin2 0 []))).map
    (fun c => (c.buf[0], c.buf[55], c.buf[56], c.buf[57], c.phase)) = some (0x00, 0x00, 0xb8, 0x01, .round) := by decide

theorem test_step_fin2_done : (nextOf (coreStep { coreIn .fin2 0 [] with lenDone := true })).map
    (fun c => (c.done, c.phase)) = some (true, .idle) := by decide

/-! ### The compressor (95_test_vectors.md V3, V4, V5) -/

/-- The block of "abc": M[0] = 80636261, M[14] = 00000018, every other word 0 (V5.1). -/
def abcWords : Words := #v[0x80636261, 0, 0, 0, 0, 0, 0, 0, 0, 0, 0, 0, 0, 0, 0x00000018, 0]

theorem test_round_0 : md5Round 0 iv abcWords = ⟨0x10325476, 0xd6d117b4, 0xefcdab89, 0x98badcfe⟩ := by decide
theorem test_round_16 : md5Round 16 ⟨0xdda9b9a6, 0x72aff2e0, 0xe396856b, 0xa1051895⟩ abcWords =
    ⟨0xa1051895, 0x3e9e9126, 0x72aff2e0, 0xe396856b⟩ := by decide
theorem test_round_32 : md5Round 32 ⟨0x790a77fb, 0x726342d3, 0xa62884aa, 0x9f47e4f8⟩ abcWords =
    ⟨0x9f47e4f8, 0xb3707ebf, 0x726342d3, 0xa62884aa⟩ := by decide
theorem test_round_48 : md5Round 48 ⟨0x7f2e507b, 0x7beb9700, 0x8fae6399, 0x99d9679d⟩ abcWords =
    ⟨0x99d9679d, 0x7b201df8, 0x7beb9700, 0x8fae6399⟩ := by decide
theorem test_round_63 : md5Round 63 ⟨0x7327d604, 0xe484b9d8, 0x624d8cb2, 0x310ade8f⟩ abcWords =
    ⟨0x310ade8f, 0xc08226b3, 0xe484b9d8, 0x624d8cb2⟩ := by decide

/-- V5.2: the all-zero state and block are ordinary inputs. -/
theorem test_compress_zero :
    compress ⟨0, 0, 0, 0⟩ (Vector.replicate 64 0) = ⟨0xf7cd1c97, 0xa5483681, 0x2b68d832, 0xf90ca639⟩ := by
  decide +kernel

/-- V1.2: MD5("abc") = 900150983cd24fb0d6963f7d28e17f72. -/
theorem test_md5_abc : md5 [0x61, 0x62, 0x63] =
    [0x90, 0x01, 0x50, 0x98, 0x3c, 0xd2, 0x4f, 0xb0, 0xd6, 0x96, 0x3f, 0x7d, 0x28, 0xe1, 0x7f, 0x72] := by
  decide +kernel

/-- V2 and V7: spot values of the ROM and of the padding table. -/
theorem test_rom_spots : romS 35 = 23 ∧ romS 32 = 4 ∧ romK 0 = 0xd76aa478 ∧ romK 63 = 0xeb86d391 := by decide
theorem test_zero_count : zeroCount 0 = 55 ∧ zeroCount 55 = 0 ∧ zeroCount 56 = 63 ∧ zeroCount 64 = 55 := by decide
theorem test_length_wraps : le64bytes (bitLength (2 ^ 61)) = [0, 0, 0, 0, 0, 0, 0, 0] := by decide

/-! ### The machine -/

/-- `step` runs the placed word as the first instruction after reset. -/
theorem test_withFetchWord_runs : (nextOf (step (State.reset.withFetchWord 32 0x22))).map
    (fun s => (s.core.phase, s.core.pend, s.hostPc)) = some (.absorb, [0, 0, 0], 1) := by decide

/-- R190: a CMD write is held while the core is busy. -/
theorem test_cmd_write_is_held : (nextOf (step (machine (coreIn .absorb 3 []) [cmdWrite 3] [.host]))).map
    (fun s => (s.core.phase, s.hostPc)) = some (.idle, 0) := by decide

/-- R66: a byte access and a misaligned access are refused. -/
theorem test_bad_accesses : (BusAccess.mk 4 1).register = .error .accessWidth ∧
    (BusAccess.mk 6 4).register = .error .accessMisaligned ∧
    (BusAccess.mk (-4) 4).register = .error .accessOutsideWindow ∧
    (BusAccess.mk 0x40 4).register = .error .accessOutsideWindow := by decide

/-- R88: `ABSORB.3 0x00636261` and `WAITIDLE` expand as the table says; the label resolves to the read of STATUS. -/
theorem test_assemble_pseudo : assemble [.absorbValue 3 0x00636261, .waitIdle 0] =
    some [.wr ⟨0x04, 4⟩ 0x00636261, .wr ⟨0x00, 4⟩ 0x00000022, .rd ⟨0x08, 4⟩ 0, .bnz 0 0x1 2] := by decide

/-- R88: `HASH` of five bytes takes a group of four and a group of one. -/
theorem test_assemble_hash : (assemble [.hash [1, 2, 3, 4, 5] 0 1 2 3 4]).map (List.take 6) =
    some [.wr ⟨0x00, 4⟩ 0x00000001, .wr ⟨0x04, 4⟩ 0x04030201, .wr ⟨0x00, 4⟩ 0x00000032,
      .wr ⟨0x04, 4⟩ 0x00000005, .wr ⟨0x00, 4⟩ 0x00000002, .wr ⟨0x00, 4⟩ 0x00000003] := by decide

/-- P4, P5: two WAITIDLEs in one program, each of which waits at its own read of STATUS. -/
theorem test_assemble_two_waits : assemble [.waitIdle 0, .waitIdle 0] =
    some [.rd ⟨0x08, 4⟩ 0, .bnz 0 0x1 0, .rd ⟨0x08, 4⟩ 0, .bnz 0 0x1 2] := by decide

/-- R87 has no ABSORB of 0 or 5 bytes and no second place for a label (log entry 12). -/
theorem test_assemble_rejects : assemble [.command (.absorb 0)] = none ∧ assemble [.absorbValue 5 0] = none ∧
    assemble [.label (.named 1), .cmd 0, .label (.named 1)] = none ∧ assemble [.bnz 0 1 (.named 1)] = none := by decide

/-! ### Witnesses: the hypotheses of every statement are met by a concrete state, clause by clause -/

theorem witness_OpcodeMapWordsDecode : 4 ≤ (0x00000004 : Word).toNat % 16 ∧ 4 ≤ (0xFFFFFFFF : Word).toNat % 16 := by
  decide

theorem witness_SetErrKeepsFirstCause : CoreState.reset.err = false ∧ coreErr.err = true := by decide

theorem witness_NopChangesNothing : (machine coreDone [] []).core.phase = .idle ∧
    (0x00000010 : Word).toNat % 16 = 0 ∧ (0x00000010 : Word) ≠ 0 := by decide

theorem witness_InitStartsNewDigest : (machine { coreErr with done := true } [] []).core.phase = .idle ∧
    (machine (coreIn .round 64 []) [cmdWrite 1] [.host]).core.phase ≠ .idle ∧
    (machine (coreIn .round 64 []) [cmdWrite 1] [.host]).turns.head? ≠ some .reset ∧
    (machine (coreIn .round 64 []) [cmdWrite 1] [.host]).hostLine = some (.wr (BusAccess.ofReg .cmd) 0x00000001) ∧
    (nextOf (coreStep (machine (coreIn .round 64 []) [cmdWrite 1] [.host]).core)).isSome = true := by decide

theorem witness_AbsorbTakesDataBytes : 1 ≤ 4 ∧ 4 ≤ 4 ∧ (machine coreData [] []).core.phase = .idle ∧
    (machine coreData [] []).core.done = false ∧
    (machine coreData [] []).core.data.toNat =
      (0x11 : Byte).toNat + 2 ^ 8 * (0x22 : Byte).toNat + 2 ^ 16 * (0x33 : Byte).toNat + 2 ^ 24 * (0x44 : Byte).toNat := by
  decide

theorem witness_FinalEntersFinalization : (machine coreData [] []).core.phase = .idle ∧
    (machine coreData [] []).core.done = false := by decide

theorem witness_SequenceErrorAfterDone : (machine coreDone [] []).core.phase = .idle ∧
    (machine coreDone [] []).core.done = true ∧ ((∃ n, Instr.absorb 1 = .absorb n) ∨ Instr.absorb 1 = .final) :=
  ⟨by decide, by decide, .inl ⟨1, rfl⟩⟩

theorem witness_IllegalWordOnlySetsError : (machine coreErr [] []).core.phase = .idle ∧ legal 0x00000004 = false ∧
    4 ≤ (0x00000004 : Word).toNat % 16 ∧ (0x00000040 : Word).toNat / 64 ≠ 0 ∧
    ((0x00000013 : Word).toNat % 16 ≠ 2 ∧ (0x00000013 : Word).toNat / 16 % 4 ≠ 0) := by decide

theorem witness_AcceptDispatchesInOrder : (machine coreDone [] []).core.phase = .idle := by decide

theorem witness_AbsorbStepPlacesByteOrCompresses :
    ((coreIn .absorb 64 [0x61]).phase = .absorb ∧ (coreIn .absorb 64 [0x61]).fill.val = 64) ∧
    ((coreIn .absorb 63 [0x61]).phase = .absorb ∧ (coreIn .absorb 63 [0x61]).fill.val < 64 ∧
      (coreIn .absorb 63 [0x61]).pend = 0x61 :: []) ∧
    ((coreIn .absorb 63 []).phase = .absorb ∧ (coreIn .absorb 63 []).fill.val < 64 ∧ (coreIn .absorb 63 []).pend = [] ∧
      (nextOf (coreStep (coreIn .absorb 63 []))).map CoreState.phase = some .idle) := by decide

theorem witness_RoundStepDoesOneRound : ({ coreIn .round 64 [] with rnd := 63 }).phase = .round ∧
    ({ coreIn .round 64 [] with rnd := 63 }).rnd.val = 63 ∧
    (63 : Fin 64).val = ({ coreIn .round 64 [] with rnd := 62 }).rnd.val + 1 := by decide

theorem witness_AddbackStepAddsWorkingRegisters : (coreIn .addback 64 []).phase = .addback := by decide

theorem witness_Fin1StepPlacesPadding : (coreIn .fin1 63 []).phase = .fin1 ∧ (coreIn .fin1 63 []).fill.val ≤ 63 ∧
    (machine (coreIn .idle 63 []) [cmdWrite 3] []).Inv ∧
    (machine (coreIn .idle 63 []) [cmdWrite 3] []).core.phase ≠ .fin1 ∧
    (nextOf (step (machine (coreIn .idle 63 []) [cmdWrite 3] []))).map (fun s => s.core.phase) = some .fin1 := by decide

theorem witness_Fin2StepEndsOrFormsLengthBlock : (coreIn .fin2 0 []).phase = .fin2 ∧
    (coreIn .fin2 0 []).lenDone = false ∧ ({ coreIn .fin2 0 [] with lenDone := true }).lenDone = true := by decide

theorem witness_RotlMovesEachBit : 1 ≤ 31 ∧ 31 ≤ 31 ∧ 31 < 32 := by decide

theorem witness_BandDispatch : (15 : Fin 64).val / 16 = 0 ∧ (16 : Fin 64).val / 16 = 1 ∧ (47 : Fin 64).val / 16 = 2 ∧
    (48 : Fin 64).val / 16 = 3 := by decide

theorem witness_RotationSchedule : (0 : Fin 64).val / 16 = 0 ∧ (31 : Fin 64).val / 16 = 1 ∧ (32 : Fin 64).val / 16 = 2 ∧
    (63 : Fin 64).val / 16 = 3 := by decide

theorem witness_EachBandUsesEachWordOnce : (63 : Fin 64).val / 16 = (3 : Fin 4).val ∧ msgIndex 63 = 9 := by decide

theorem witness_RoundFunction : abcWords[0] = 0x80636261 := by decide

/-- The block of "abc", first four bytes. -/
def abcBlock : Block := (((Vector.replicate 64 0).set 0 0x61).set 1 0x62).set 2 0x63 |>.set 3 0x80

theorem witness_BlockWordsAreLittleEndian : (63 : Fin 64).val = 4 * (15 : Fin 16).val + (3 : Fin 4).val ∧
    abcBlock[0] = 0x61 ∧ abcBlock[1] = 0x62 ∧ abcBlock[2] = 0x63 ∧ abcBlock[3] = 0x80 := by decide

theorem witness_PadLengthAndBlockCount : (List.replicate 55 (0x61 : Byte)).length % 64 ≤ 55 ∧
    56 ≤ (List.replicate 56 (0x61 : Byte)).length % 64 := by decide

theorem witness_BlocksPartitionInOrder : (List.replicate 64 (0x61 : Byte)).length % 64 = 0 := by decide

theorem witness_DigestBytesAreLittleEndian : (machine coreDone [] []).core.phase = .idle ∧ 3 < 4 ∧ (3 : Nat) < 4 := by
  decide

theorem witness_RoundsThenAddbackCompress : (CoreState.reset.startCompress .fin2).phase = .round ∧
    (CoreState.reset.startCompress .fin2).rnd = 0 ∧
    (CoreState.reset.startCompress .fin2).w = (CoreState.reset.startCompress .fin2).h := by decide

/-- The host's turn, with one line. -/
def hostTurn (c : CoreState) (op : HostOp) : State := machine c [op] [.host]

theorem witness_OtherAccessesAreRefused : (hostTurn coreData (.wr ⟨0x3D, 4⟩ 0)).turns.head? = some .host ∧
    ¬((0x3D : Int) ≤ 0x3C) ∧ (hostTurn coreData (.wr ⟨0x3D, 4⟩ 0)).hostLine = some (.wr ⟨0x3D, 4⟩ 0) ∧
    (hostTurn coreData (.rd ⟨0x02, 4⟩ 1)).hostLine = some (.rd ⟨0x02, 4⟩ 1) := by decide

theorem witness_StepRunsTheDecodedCommand : (machine coreData [cmdWrite 0x32] [.core]).core.phase = .idle ∧
    (machine coreData [cmdWrite 0x32] [.core]).turns.head? ≠ some .reset ∧
    (machine coreData [cmdWrite 0x32] [.core]).hostLine = some (.wr (BusAccess.ofReg .cmd) 0x32) ∧
    decode 0x32 = .ok (.absorb 4) := by decide

theorem witness_CommandWriteIsHeldWhileBusy : (machine (coreIn .fin1 63 []) [cmdWrite 1] [.host]).core.phase ≠ .idle ∧
    (machine (coreIn .fin1 63 []) [cmdWrite 1] [.host]).turns.head? ≠ some .reset ∧
    (machine (coreIn .fin1 63 []) [cmdWrite 1] [.host]).hostLine = some (.wr (BusAccess.ofReg .cmd) 1) ∧
    (nextOf (coreStep (machine (coreIn .fin1 63 []) [cmdWrite 1] [.host]).core)).isSome = true := by decide

theorem witness_HeldWriteWaitsAtMost133Steps : (machine (coreIn .fin1 63 []) [cmdWrite 1] [.host]).core.Inv ∧
    (machine (coreIn .fin1 63 []) [cmdWrite 1] [.host]).core.phase ≠ .idle ∧
    Turn.reset ∉ (machine (coreIn .fin1 63 []) [cmdWrite 1] [.host]).turns ∧
    (machine (coreIn .fin1 63 []) [cmdWrite 1] [.host]).hostLine = some (.wr (BusAccess.ofReg .cmd) 1) := by decide

theorem witness_DataWriteInAnyState :
    (hostTurn (coreIn .absorb 3 [0x61]) (.wr (BusAccess.ofReg .data) 5)).turns.head? = some .host ∧
    (hostTurn (coreIn .absorb 3 [0x61]) (.wr (BusAccess.ofReg .data) 5)).hostLine =
      some (.wr (BusAccess.ofReg .data) 5) := by decide

theorem witness_ReservedAndReadOnlyRegisters :
    Reg.rsv3C ∈ [Reg.rsv14, .rsv18, .rsv1C, .rsv30, .rsv34, .rsv38, .rsv3C] ∧ Reg.status ≠ .cmd ∧ Reg.status ≠ .data ∧
    (hostTurn (coreIn .round 64 []) (.wr (BusAccess.ofReg .status) 5)).turns.head? = some .host ∧
    (hostTurn (coreIn .round 64 []) (.wr (BusAccess.ofReg .status) 5)).hostLine =
      some (.wr (BusAccess.ofReg .status) 5) := by decide

theorem witness_RegisterReadChangesNothing :
    (hostTurn (coreIn .round 64 []) (.rd (BusAccess.ofReg .lenHi) 2)).turns.head? = some .host ∧
    (hostTurn (coreIn .round 64 []) (.rd (BusAccess.ofReg .lenHi) 2)).hostLine = some (.rd (BusAccess.ofReg .lenHi) 2) := by
  decide

theorem witness_RegisterValues : (machine coreData [] []).core.phase = .idle := by decide

theorem witness_StatusFields : (machine (coreIn .idle 63 []) [] []).core.phase = .idle := by decide

theorem witness_SchedulerPicksAnEnabledAgent :
    (machine coreData [] [.reset]).turns.head? = some .reset ∧
    ((machine (coreIn .round 64 []) [] [.core]).core.phase ≠ .idle ∧
      (machine (coreIn .round 64 []) [] [.core]).turns.head? ≠ some .reset ∧
      (machine (coreIn .round 64 []) [] [.core]).turns.head? ≠ some .host) ∧
    ((machine coreData [cmdWrite 0] [.core]).core.phase = .idle ∧
      (machine coreData [cmdWrite 0] [.core]).hostLine = some (cmdWrite 0)) ∧
    ((hostTurn (coreIn .round 64 []) (.bnz 0 1 0)).turns.head? = some .host ∧
      (hostTurn (coreIn .round 64 []) (.bnz 0 1 0)).hostLine = some (.bnz 0 1 0) ∧
      (HostOp.bnz 0 1 0).commandWord = none) ∧
    ((machine (coreIn .round 64 []) [] [.host]).core.phase ≠ .idle ∧
      (machine (coreIn .round 64 []) [] [.host]).hostLine = none) ∧
    ((machine coreData [] [.host]).core.phase = .idle ∧ (machine coreData [] [.host]).hostLine = none) := by decide

theorem witness_ResetFromAnyState : (machine (coreIn .round 64 []) [cmdWrite 3] [.reset]).turns.head? = some .reset := by
  decide

theorem witness_EveryStepKeepsInvariant : (machine (coreIn .absorb 63 [0x61]) [] []).Inv ∧
    ∃ t, step (machine (coreIn .absorb 63 [0x61]) [] []) = .next t := ⟨by decide, _, rfl⟩

theorem witness_MachineGoesOn : (machine coreData [cmdWrite 3] []).Inv ∧ (machine coreData [cmdWrite 3] []).HostReady := by
  refine ⟨by decide, fun op h => ?_⟩
  obtain rfl : cmdWrite 3 = op := by simpa [machine, State.hostLine, State.reset] using h
  exact ⟨⟨.cmd, by decide⟩, fun _ _ _ h => by cases h⟩

theorem witness_OnlyTheseStepsChangeTheCore :
    ∃ t, step (machine coreData [cmdWrite 2] []) = .next t ∧ t.core ≠ (machine coreData [cmdWrite 2] []).core :=
  ⟨_, rfl, by decide⟩

theorem witness_RunningStateWriters :
    ∃ t, step (machine { coreIn .addback 64 [] with w := ⟨1, 0, 0, 0⟩ } [] []) = .next t ∧
      t.core.h ≠ (machine { coreIn .addback 64 [] with w := ⟨1, 0, 0, 0⟩ } [] []).core.h := ⟨_, rfl, by decide⟩

theorem witness_LengthCounterWriters :
    ∃ t, step (machine { coreIn .absorb 63 [0x61] with len := 0xFFFFFFFFFFFFFFF8 } [] []) = .next t ∧
      t.core.len ≠ (machine { coreIn .absorb 63 [0x61] with len := 0xFFFFFFFFFFFFFFF8 } [] []).core.len :=
  ⟨_, rfl, by decide⟩

theorem witness_ErrorIsStickyWithFirstCause :
    ∃ t, step (machine coreErr [cmdWrite 4] []) = .next t ∧ (machine coreErr [cmdWrite 4] []).core.err = true ∧
      nextAgent (machine coreErr [cmdWrite 4] []) ≠ some .reset ∧
      (machine coreErr [cmdWrite 4] []).acceptedWord ≠ some 0x00000001 :=
  ⟨_, rfl, by decide, by decide, by decide⟩

theorem witness_OnlyTheseRaiseAnError :
    ∃ t, step (machine coreDone [cmdWrite 3] []) = .next t ∧ (machine coreDone [cmdWrite 3] []).core.err = false ∧
      t.core.err = true := ⟨_, rfl, by decide, by decide⟩

theorem witness_FinishedDigestStays :
    (∃ t, step (machine { coreIn .fin2 0 [] with lenDone := true } [] []) = .next t ∧
      (machine { coreIn .fin2 0 [] with lenDone := true } [] []).core.done = false ∧ t.core.done = true) ∧
    ∃ t, step (machine coreDone [cmdWrite 3] []) = .next t ∧ (machine coreDone [cmdWrite 3] []).core.done = true ∧
      (machine coreDone [cmdWrite 3] []).core.phase = .idle ∧
      nextAgent (machine coreDone [cmdWrite 3] []) ≠ some .reset ∧
      (machine coreDone [cmdWrite 3] []).acceptedWord ≠ some 0x00000001 :=
  ⟨⟨_, rfl, by decide, by decide⟩, _, rfl, by decide, by decide, by decide, by decide⟩

theorem witness_IdleCoreHoldsItsState :
    ∃ t, step (hostTurn coreData (.rd (BusAccess.ofReg .status) 0)) = .next t ∧
      (hostTurn coreData (.rd (BusAccess.ofReg .status) 0)).core.phase = .idle ∧
      nextAgent (hostTurn coreData (.rd (BusAccess.ofReg .status) 0)) ≠ some .reset ∧
      (hostTurn coreData (.rd (BusAccess.ofReg .status) 0)).acceptedWord = none ∧ Reg.digest0 ≠ .data :=
  ⟨_, rfl, by decide, by decide, by decide, by decide⟩

/-- Each branch of each count: FILL + n below 64 and from 64 on, FILL up to 55 and from 56 on, the four kinds of word
that take no step, and a state of the bound. -/
theorem witness_StepCountsFromAcceptance :
    ((coreIn .idle 59 []).phase = .idle ∧ (coreIn .idle 59 []).done = false ∧ (coreIn .idle 59 []).fill.val ≤ 63 ∧
      (coreIn .idle 59 []).fill.val + 4 < 64 ∧ (nextOf (exec (.absorb 4) (machine (coreIn .idle 59 []) [] []))).isSome) ∧
    ((coreIn .idle 63 []).phase = .idle ∧ (coreIn .idle 63 []).done = false ∧ (coreIn .idle 63 []).fill.val ≤ 63 ∧
      ¬(coreIn .idle 63 []).fill.val + 1 < 64 ∧ (nextOf (exec (.absorb 1) (machine (coreIn .idle 63 []) [] []))).isSome) ∧
    ((coreIn .idle 55 []).phase = .idle ∧ (coreIn .idle 55 []).done = false ∧ (coreIn .idle 55 []).fill.val ≤ 55 ∧
      (nextOf (exec .final (machine (coreIn .idle 55 []) [] []))).isSome) ∧
    ((coreIn .idle 56 []).phase = .idle ∧ (coreIn .idle 56 []).done = false ∧ (coreIn .idle 56 []).fill.val ≤ 63 ∧
      ¬(coreIn .idle 56 []).fill.val ≤ 55 ∧ (nextOf (exec .final (machine (coreIn .idle 56 []) [] []))).isSome) ∧
    (legal 0x00000004 = false ∧ coreDone.done = true ∧ coreDone.phase = .idle ∧
      ∀ c ∈ [(0x00000000 : Word), 0x00000001, 0x00000004, 0x00000003],
        ∃ t, accept c (machine coreDone [] []) = .next t) ∧
    (coreIn .fin1 63 []).Inv := ⟨by decide, by decide, by decide, by decide,
      ⟨by decide, by decide, by decide, fun c _ => (accept_next c _).imp' _ fun _ h => h⟩, by decide⟩

/-- The lines of a host that absorbs "abc" in one command. -/
def abcAtOnce : List HostOp := [.wr (BusAccess.ofReg .data) 0x00636261, cmdWrite 0x22]

/-- The lines of a host that absorbs "ab" and then "c" (R213). -/
def abcInTwo : List HostOp :=
  [.wr (BusAccess.ofReg .data) 0x00006261, cmdWrite 0x12, .wr (BusAccess.ofReg .data) 0x00000063, cmdWrite 0x02]

/-- What a run from reset ends in: its absorbed message, its phase and DONE. -/
def runEnd (k : Nat) (ops : List HostOp) : Option (List Byte × Phase × Bool) :=
  (absorbedRun k [] (machine CoreState.reset ops [])).map fun r => (r.1, r.2.core.phase, r.2.core.done)

/-- R204: the DATA write, the acceptance, and 4 core steps for ABSORB 3. -/
theorem abcAtOnce_absorbed : runEnd 6 abcAtOnce = some ([0x61, 0x62, 0x63], .idle, false) := by decide

/-- P1: FINAL and its 67 core steps after that. -/
theorem abcAtOnce_done : runEnd 74 (abcAtOnce ++ [cmdWrite 3]) = some ([0x61, 0x62, 0x63], .idle, true) := by
  decide +kernel

/-- R204: 3 and 2 core steps for ABSORB 2 and ABSORB 1, and 67 for FINAL. -/
theorem abcInTwo_done : runEnd 77 (abcInTwo ++ [cmdWrite 3]) = some ([0x61, 0x62, 0x63], .idle, true) := by
  decide +kernel

/-- The reset core is one that R44 allows. -/
theorem reset_afterReset : CoreState.reset.AfterReset := by decide

/-- A run from reset reaches a state with the message, phase and DONE that `runEnd` computes. -/
theorem exists_of_runEnd {k : Nat} {ops : List HostOp} {m : List Byte} {p : Phase} {d : Bool}
    (h : runEnd k ops = some (m, p, d)) : ∃ s : State, Absorbed m s ∧ s.core.phase = p ∧ s.core.done = d := by
  obtain ⟨⟨m', s⟩, hr, he⟩ := Option.map_eq_some_iff.mp h
  cases he
  exact ⟨s, (Absorbed.afterReset (machine CoreState.reset ops []) reset_afterReset).run hr, rfl, rfl⟩

theorem witness_AbsorbInvariant : ∃ s : State, Absorbed [0x61, 0x62, 0x63] s ∧ s.core.phase = .idle ∧
    s.core.done = false := exists_of_runEnd abcAtOnce_absorbed

theorem witness_DigestLaw : ∃ s : State, Absorbed [0x61, 0x62, 0x63] s ∧ s.core.phase = .idle ∧ s.core.done = true :=
  exists_of_runEnd abcAtOnce_done

/-- "abc" at once and "ab" then "c". -/
theorem witness_ChunkingIndependence : ∃ s t : State, Absorbed [0x61, 0x62, 0x63] s ∧ Absorbed [0x61, 0x62, 0x63] t ∧
    s.core.phase = .idle ∧ t.core.phase = .idle ∧ s.core.done = true ∧ t.core.done = true := by
  obtain ⟨s, hs, ps, ds⟩ := exists_of_runEnd abcAtOnce_done
  obtain ⟨t, ht, pt, dt⟩ := exists_of_runEnd abcInTwo_done
  exact ⟨s, t, hs, ht, ps, pt, ds, dt⟩

/-- The core after `ABSORB 2` of 61 62 was accepted, with 61 placed. -/
def coreTracking : CoreState :=
  { coreIn .absorb 1 [0x62] with len := 8, buf := (Vector.replicate 64 0).set 0 0x61 }

theorem witness_EveryStepTracksTheMessage : (machine coreTracking [] []).Inv ∧
    (machine coreTracking [] []).core.Tracks [0x61, 0x62] ∧ ∃ t, step (machine coreTracking [] []) = .next t :=
  ⟨by decide,
    { pending := by decide
      counted := by decide
      absorbing := fun _ _ => ⟨by decide, by decide, by decide, by decide⟩
      inRounds := fun h => absurd h (by decide)
      afterRounds := fun h => absurd h (by decide)
      finalizing := fun h => absurd h (by decide)
      ending := fun h => absurd h (by decide)
      finished := fun h => absurd h (by decide) }, _, rfl⟩

/-- A core after reset with other values in the unspecified elements (R44). -/
def coreReset' : CoreState :=
  { CoreState.reset with w := ⟨1, 2, 3, 4⟩, rnd := 63, ret := .fin2, lenDone := true, buf := Vector.replicate 64 0xff }

theorem witness_ResetStateMeetsInvariant : coreReset'.AfterReset ∧ coreReset' ≠ CoreState.reset := by decide

theorem witness_UnspecifiedResetValuesAreUnobservable : CoreState.reset.AfterReset ∧ coreReset'.AfterReset ∧
    coreReset' ≠ CoreState.reset ∧
    (nextOf (machineRun 2 (machine coreReset' [cmdWrite 3] []))).isSome = true ∧
    (match machineRun 1 (machine coreReset' [.rd ⟨2, 4⟩ 0] []) with
      | .refused r => decide (r = .accessMisaligned)
      | _ => false) = true := by decide

/-- Two instances under their numbers, the second one busy. -/
def twoUnits : System := ⟨[State.reset, { machine (coreIn .round 64 []) [] [] with unit := 1 }]⟩

theorem witness_InstancesAreIndependent : twoUnits.Numbered ∧
    ∃ s t y, twoUnits.units[1]? = some s ∧ Machine.step s = .next t ∧ System.step 1 twoUnits = .next y := by
  refine ⟨fun k s h => ?_, _, _, _, rfl, rfl, rfl⟩
  match k with
  | 0 => cases h; rfl
  | 1 => cases h; rfl
  | k + 2 => simp [twoUnits] at h

end Sys2Proof.Tests
end

section
/-! PROOFS. The host bus in front of the window: absolute addresses and byte lanes (00_scope.md R6, 20_memory.md R66,
R69). -/

namespace Sys2Proof.Machine

/-- `le32` puts the bytes of a word together again (R10). -/
@[simp] theorem le32_wordByte (x : Word) : le32 (wordByte x 0) (wordByte x 1) (wordByte x 2) (wordByte x 3) = x := by
  unfold le32 wordByte
  -- from the top byte down, adjacent slices of the word join to one slice
  rw [BitVec.extractLsb'_append_extractLsb'_eq_extractLsb' (by rfl),
    BitVec.extractLsb'_append_extractLsb'_eq_extractLsb' (by rfl),
    BitVec.extractLsb'_append_extractLsb'_eq_extractLsb' (by rfl)]
  exact BitVec.extractLsb'_eq_self

@[simp] theorem lanesOf_length (o : ByteOrder) (x : Word) : (lanesOf o x).length = 4 := by
  cases o <;> rfl

/-- The lanes of a word carry that word, if the same order is used both ways (R6, R69). -/
@[simp] theorem wordOfLanes_lanesOf (o : ByteOrder) (x : Word) : wordOfLanes o (lanesOf o x) = x := by
  cases o with
  | little => exact le32_wordByte x
  | big => exact le32_wordByte x

/-- The base of the window cancels: only the offset is left of an address in it (R69). -/
theorem ofAddress_base_add (base offset bytes : Nat) :
    BusAccess.ofAddress base (base + offset) bytes = ⟨offset, bytes⟩ := by
  simp [BusAccess.ofAddress]

theorem ofAddress_base_add_offset (base : Nat) (r : Reg) :
    BusAccess.ofAddress base (base + r.offset) 4 = BusAccess.ofReg r :=
  ofAddress_base_add base r.offset 4

/-- Settles O59: the base cancels from the address, and the lanes of either order carry the whole word. -/
theorem busParametersDoNotMatter : Obligations.BusParametersDoNotMatter := by
  refine ⟨fun base r => ?_, fun o x => ⟨wordOfLanes_lanesOf o x, lanesOf_length o x⟩⟩
  rw [ofAddress_base_add_offset, register_ofReg]

end Sys2Proof.Machine
end

section
/-! PROOFS. The word of INIT (30_encoding.md R80, R81), and the core's step: an equation for each branch, and what each
step writes (44_commands.md R197-R202). -/

namespace Sys2Proof.Machine

/-! ### The word of INIT -/

/-- The three fields are the whole word (R80). -/
theorem word_eq_fields (c : Word) : rsvField c ++ nbm1Field c ++ opField c = c := by
  unfold rsvField nbm1Field opField
  rw [BitVec.extractLsb'_append_extractLsb'_eq_extractLsb' (by rfl),
    BitVec.extractLsb'_append_extractLsb'_eq_extractLsb' (by rfl)]
  exact BitVec.extractLsb'_eq_self

theorem decodePlain_eq_ok {c : Word} {i j : Instr} : decodePlain c i = .ok j ↔ nbm1Field c = 0 ∧ i = j := by
  unfold decodePlain
  split <;> simp_all

/-- INIT has one word (R81, R83). -/
theorem eq_of_decode_init {c : Word} (h : decode c = .ok .init) : c = 0x00000001 := by
  unfold decode decodeOp at h
  split at h
  case isFalse => cases h
  case isTrue hr =>
    split at h
    case isTrue => simp [decodePlain_eq_ok] at h
    split at h
    case isTrue ho =>
      rw [← word_eq_fields c, hr, (decodePlain_eq_ok.mp h).1, ho]; decide
    split at h
    case isTrue => cases h
    split at h
    case isTrue => simp [decodePlain_eq_ok] at h
    case isFalse => cases h

/-! ### The core's step, one equation for each branch (R197-R202) -/

theorem coreStep_of_idle {c : CoreState} (h : c.phase = .idle) : coreStep c = .next c := by
  simp [coreStep, h]

theorem coreStep_place {c : CoreState} {b : Byte} {rest : List Byte} (hp : c.phase = .absorb) (hf : c.fill.val < 64)
    (hq : c.pend = b :: rest) : coreStep c = .next (c.placeByte hf b rest) := by
  simp [coreStep, hp, stepAbsorb, hf, hq]

theorem coreStep_absorb_end {c : CoreState} (hp : c.phase = .absorb) (hf : c.fill.val < 64) (hq : c.pend = []) :
    coreStep c = .next { c with phase := .idle } := by
  simp [coreStep, hp, stepAbsorb, hf, hq]

theorem coreStep_absorb_full {c : CoreState} (hp : c.phase = .absorb) (hf : ¬c.fill.val < 64) :
    coreStep c = .next (c.startCompress .absorb) := by
  simp [coreStep, hp, stepAbsorb, hf]

theorem coreStep_round {c : CoreState} (hp : c.phase = .round) (hr : c.rnd ≠ 63) :
    coreStep c = .next { c with w := md5Round c.rnd c.w (blockWords c.buf), rnd := c.rnd + 1 } := by
  simp [coreStep, hp, stepRound, hr]

theorem coreStep_last_round {c : CoreState} (hp : c.phase = .round) (hr : c.rnd = 63) :
    coreStep c = .next { c with w := md5Round c.rnd c.w (blockWords c.buf), phase := .addback } := by
  simp [coreStep, hp, stepRound, hr]

theorem coreStep_addback {c : CoreState} (hp : c.phase = .addback) : coreStep c = .next (stepAddback c) := by
  simp [coreStep, hp]

theorem coreStep_fin1 {c : CoreState} (hp : c.phase = .fin1) (hf : c.fill.val < 64) :
    coreStep c = .next ((c.fin1Place hf).startCompress .fin2) := by
  simp [coreStep, hp, stepFin1, hf]

theorem coreStep_fin1_full {c : CoreState} (hp : c.phase = .fin1) (hf : ¬c.fill.val < 64) :
    coreStep c = .fault .fin1WithFullBuffer := by
  simp [coreStep, hp, stepFin1, hf]

theorem coreStep_fin2_done {c : CoreState} (hp : c.phase = .fin2) (hl : c.lenDone = true) :
    coreStep c = .next { c with done := true, phase := .idle } := by
  simp [coreStep, hp, stepFin2, hl]

theorem coreStep_fin2_length {c : CoreState} (hp : c.phase = .fin2) (hl : c.lenDone = false) :
    coreStep c = .next (CoreState.startCompress .fin2
      { c with buf := lengthBlock c.buf c.len, lenDone := true, fill := 64 }) := by
  simp [coreStep, hp, stepFin2, hl]

/-! ### What a core step writes -/

/-- What a core step from `c` to `d` writes of the elements that claims about the whole machine speak of, each with the
only step that writes it; no core step writes ERR, ECAUSE or DATA (R197-R202). -/
structure CoreStepWrites (c d : CoreState) : Prop where
  err : d.err = c.err
  ecause : d.ecause = c.ecause
  data : d.data = c.data
  /-- H: the add-back (R200). -/
  h : d.h = c.h ∨ c.phase = .addback
  /-- LEN and PEND: the placing of a message byte (R198). -/
  placed : d.len = c.len ∧ d.pend = c.pend ∨
    c.phase = .absorb ∧ c.fill.val < 64 ∧ d.len = c.len + 8 ∧ ∃ b, c.pend = b :: d.pend
  /-- DONE: the end of the finalization (R202). -/
  done : d.done = c.done ∨ c.phase = .fin2 ∧ d.phase = .idle ∧ d.fill = c.fill

theorem coreStep_writes {c d : CoreState} (h : coreStep c = .next d) : CoreStepWrites c d := by
  rcases coreStep_cases h with
    ⟨_, rfl⟩ | ⟨_, _, rfl⟩ | ⟨hf, b, rest, hp, hq, rfl⟩ | ⟨_, _, _, rfl⟩ | ⟨_, _, rfl⟩ | ⟨_, _, rfl⟩ |
    ⟨hp, rfl⟩ | ⟨_, _, rfl⟩ | ⟨hp, _, rfl⟩ | ⟨_, _, rfl⟩
  -- the three exceptions: a message byte is placed, the add-back, the end of the finalization
  case inr.inr.inl => exact ⟨rfl, rfl, rfl, .inl rfl, .inr ⟨hp, hf, rfl, b, hq⟩, .inl rfl⟩
  case inr.inr.inr.inr.inr.inr.inl => exact ⟨rfl, rfl, rfl, .inr hp, .inl ⟨rfl, rfl⟩, .inl rfl⟩
  case inr.inr.inr.inr.inr.inr.inr.inr.inl => exact ⟨rfl, rfl, rfl, .inl rfl, .inl ⟨rfl, rfl⟩, .inr ⟨hp, rfl, rfl⟩⟩
  -- every other step writes none of them
  all_goals exact ⟨rfl, rfl, rfl, .inl rfl, .inl ⟨rfl, rfl⟩, .inl rfl⟩

theorem CoreStepWrites.pend_length {c d : CoreState} (h : CoreStepWrites c d) : d.pend.length ≤ c.pend.length := by
  rcases h.placed with ⟨_, hq⟩ | ⟨_, _, _, b, hq⟩ <;> simp [hq]

end Sys2Proof.Machine
end

section
/-! PROOFS. What one step of the machine does to its core (44_commands.md R196, R206), said once for the rules about the
whole machine. -/

namespace Sys2Proof.Machine

theorem plainWrite_of_ne_data {r : Reg} (h : r ≠ .data) (v : Word) (c : CoreState) : plainWrite r v c = c := by
  cases r with
  | data => exact absurd rfl h
  | _ => rfl

theorem acceptedWord_eq {s : State} {op : HostOp} (ha : nextAgent s = some .host) (hl : s.hostLine = some op) :
    s.acceptedWord = op.commandWord := by
  simp [State.acceptedWord, ha, hl]

theorem commandWord_of_register_cmd {a : BusAccess} (h : a.register = .ok .cmd) (v : Word) :
    (HostOp.wr a v).commandWord = some v := by
  simp [HostOp.commandWord, h]

/-- `CoreMove s d`: a step from `s` may leave the core as `d`. One constructor for each way of R206 to change the core,
with `Accept` taken apart by its outcomes (R196), and `same` for the steps that leave it alone. -/
inductive CoreMove (s : State) : CoreState → Prop where
  | reset (ha : nextAgent s = some .reset) : CoreMove s CoreState.reset
  | core {d : CoreState} (ha : nextAgent s = some .core) (hb : s.core.phase ≠ .idle) (hd : coreStep s.core = .next d) :
      CoreMove s d
  | init (hp : s.core.phase = .idle) (hw : s.acceptedWord = some 0x00000001) : CoreMove s s.core.initDigest
  | absorb {c : Word} {n : Nat} (hp : s.core.phase = .idle) (hw : s.acceptedWord = some c)
      (hc : decode c = .ok (.absorb n)) (hd : s.core.done = false) :
      CoreMove s { s.core with pend := dataBytes s.core.data n, phase := .absorb }
  | final {c : Word} (hp : s.core.phase = .idle) (hw : s.acceptedWord = some c) (hc : decode c = .ok .final)
      (hd : s.core.done = false) : CoreMove s { s.core with phase := .fin1 }
  | sequence {c : Word} {i : Instr} (hp : s.core.phase = .idle) (hw : s.acceptedWord = some c) (hc : decode c = .ok i)
      (hi : (∃ n, i = .absorb n) ∨ i = .final) (hd : s.core.done = true) : CoreMove s (s.core.setErr .sequenceError)
  | illegal {c : Word} {e : Reject} (hp : s.core.phase = .idle) (hw : s.acceptedWord = some c)
      (hc : decode c = .error e) : CoreMove s (s.core.setErr .illegalCommand)
  | data {a : BusAccess} (v : Word) (ha : nextAgent s = some .host) (hl : s.hostLine = some (.wr a v))
      (hr : a.register = .ok .data) : CoreMove s { s.core with data := v }
  | same : CoreMove s s.core

/-- What accepting a word does to the core (R196); `s'` is the machine with the host at its next line. -/
theorem accept_coreMove {s s' t : State} {c : Word} (hp : s.core.phase = .idle) (hw : s.acceptedWord = some c)
    (hs : s'.core = s.core) (h : accept c s' = .next t) : CoreMove s t.core := by
  rcases accept_cases h with ⟨i, hc, hi⟩ | ⟨e, hc, rfl⟩
  · rcases exec_cases hi with
      ⟨rfl, rfl⟩ | ⟨rfl, rfl⟩ | ⟨n, rfl, hd, rfl⟩ | ⟨rfl, hd, rfl⟩ | ⟨hop, hd, rfl⟩
    · exact hs ▸ .same
    · exact hs ▸ .init hp (eq_of_decode_init hc ▸ hw)
    · exact hs ▸ .absorb hp hw hc (hs ▸ hd)
    · exact hs ▸ .final hp hw hc (hs ▸ hd)
    · exact hs ▸ .sequence hp hw hc hop (hs ▸ hd)
  · exact hs ▸ .illegal hp hw hc

/-- Every step changes the core in one of the ways of `CoreMove`, or not at all (R206). -/
theorem step_coreMove {s t : State} (h : step s = .next t) : CoreMove s t.core := by
  rcases step_cases h with ⟨ha, rfl⟩ | ⟨ha, hb, c, hc, rfl⟩ | ⟨ha, op, hl, hh, ho⟩ | ⟨_, rfl⟩
  · exact .reset ha
  · exact .core ha hb hc
  · rcases hostStep_cases ho with
      ⟨a, v, rfl, hr, hacc⟩ | ⟨a, v, r, rfl, hr, _, rfl⟩ | ⟨_, _, _, _, _, rfl⟩ | ⟨_, _, _, _, _, _, rfl⟩
    · have hw := commandWord_of_register_cmd hr v
      exact accept_coreMove (held_commandWord hh hw) ((acceptedWord_eq ha hl).trans hw)
        (s' := s.popTurn.hostNext.tick) rfl hacc
    · by_cases hd : r = .data
      · subst hd; exact .data v ha hl hr
      · rw [State.withCore_core, plainWrite_of_ne_data hd]; exact .same
    · exact .same
    · split <;> exact .same
  · exact .same

end Sys2Proof.Machine
end

section
/-! PROOFS. The invariant of 10_state.md R45, items 1 to 4: it holds after reset and every step keeps it. -/

namespace Sys2Proof.Machine

/-- What the invariant says of FILL and PEND in each phase (R24, R26, R45, R201). -/
def CoreState.PhaseInv (c : CoreState) : Prop :=
  match c.phase with
  | .idle => c.fill.val ≤ 63 ∧ c.pend = []
  | .absorb => True
  | .round => c.fill.val = 64 ∧ (c.ret = .fin2 → c.pend = [])
  | .addback => c.fill.val = 64 ∧ (c.ret = .fin2 → c.pend = [])
  | .fin1 => c.fill.val ≤ 63 ∧ c.pend = []
  | .fin2 => c.fill.val = 0 ∧ c.pend = []

/-- What the invariant says of ERR and ECAUSE (R32, R45). -/
def CoreState.ErrInv (c : CoreState) : Prop := (c.err = false ↔ c.ecause = .none) ∧ c.ecause ≠ .reserved

/-- The invariant by phase. -/
theorem inv_iff {c : CoreState} :
    c.Inv ↔ c.PhaseInv ∧ (c.done = true → c.phase = .idle ∧ c.fill.val = 0) ∧ c.ErrInv ∧ c.pend.length ≤ 4 := by
  cases hp : c.phase <;> simp [CoreState.Inv, CoreState.PhaseInv, CoreState.ErrInv, hp] <;> tauto

/-- A core step keeps what the invariant says by phase: FILL is 64 from the start of a compression to its add-back, and
PEND is empty from the start of the finalization on. -/
theorem coreStep_phaseInv {c d : CoreState} (hi : c.PhaseInv) (h : coreStep c = .next d) : d.PhaseInv := by
  unfold CoreState.PhaseInv at hi
  rcases coreStep_cases h with
    ⟨hp, rfl⟩ | ⟨_, hf, rfl⟩ | ⟨_, _, _, hp, _, rfl⟩ | ⟨_, hf, hq, rfl⟩ | ⟨hp, _, rfl⟩ | ⟨hp, _, rfl⟩ |
    ⟨hp, rfl⟩ | ⟨_, hp, rfl⟩ | ⟨hp, _, rfl⟩ | ⟨hp, _, rfl⟩
  · exact hi
  · exact ⟨hf, nofun⟩
  · simp [CoreState.PhaseInv, hp]
  · exact ⟨Nat.le_of_lt_succ hf, hq⟩
  · rw [hp] at hi; exact hi
  · rw [hp] at hi; simpa [CoreState.PhaseInv, hp] using hi
  · rw [hp] at hi
    obtain ⟨_, hq⟩ := hi
    cases hr : c.ret <;> simp_all [CoreState.PhaseInv, Ret.phase]
  · rw [hp] at hi; exact ⟨rfl, fun _ => hi.2⟩
  · rw [hp] at hi; exact ⟨hi.1.trans_le (by decide), hi.2⟩
  · rw [hp] at hi; exact ⟨rfl, fun _ => hi.2⟩

/-- A core step keeps the invariant. -/
theorem coreStep_inv {c d : CoreState} (hi : c.Inv) (h : coreStep c = .next d) : d.Inv := by
  obtain ⟨hphase, hdone, herr, hpend⟩ := inv_iff.mp hi
  cases hdc : c.done with
  | true =>
    obtain rfl : c = d := by simpa [coreStep_of_idle (hdone hdc).1] using h
    exact hi
  | false =>
    have hw := coreStep_writes h
    refine inv_iff.mpr ⟨coreStep_phaseInv hphase h, fun hd => ?_, ?_, hw.pend_length.trans hpend⟩
    · rcases hw.done with hsame | ⟨hp, hp', hf⟩
      · simp [hsame, hdc] at hd
      · rw [CoreState.PhaseInv, hp] at hphase
        exact ⟨hp', hf ▸ hphase.1⟩
    · rwa [CoreState.ErrInv, hw.err, hw.ecause]

theorem errInv_setErr {c : CoreState} {code : Cause} (hi : c.ErrInv) (h0 : code ≠ .none) (h3 : code ≠ .reserved) :
    (c.setErr code).ErrInv := by
  cases he : c.err <;> simp_all [CoreState.ErrInv]

theorem inv_setErr {c : CoreState} {code : Cause} (hi : c.Inv) (h0 : code ≠ .none) (h3 : code ≠ .reserved) :
    (c.setErr code).Inv := by
  obtain ⟨hphase, hdone, herr, hpend⟩ := inv_iff.mp hi
  exact inv_iff.mpr ⟨hphase, hdone, errInv_setErr herr h0 h3, hpend⟩

/-- After reset the invariant holds, whatever the unspecified elements hold (R44). -/
theorem inv_of_afterReset {c : CoreState} (h : c.AfterReset) : c.Inv := by
  obtain ⟨_, _, hf, hq, hp, hd, he, hc, _⟩ := h
  refine inv_iff.mpr ⟨?_, ?_, ?_, ?_⟩ <;> simp [CoreState.PhaseInv, CoreState.ErrInv, *]

/-- Every move of the core keeps the invariant. -/
theorem CoreMove.inv {s : State} {d : CoreState} (h : CoreMove s d) (hi : s.Inv) : d.Inv := by
  obtain ⟨hphase, hdone, herr, hpend⟩ := inv_iff.mp hi
  cases h with
  | reset => decide
  | core _ _ hd => exact coreStep_inv hi hd
  | init hp => exact inv_iff.mpr ⟨by simp [CoreState.PhaseInv, hp], nofun, by simp [CoreState.ErrInv], by simp⟩
  | absorb hp hw hc hd => exact inv_iff.mpr ⟨trivial, by simp [hd], herr, by simp⟩
  | final hp hw hc hd =>
    rw [CoreState.PhaseInv, hp] at hphase
    exact inv_iff.mpr ⟨hphase, by simp [hd], herr, hpend⟩
  | sequence => exact inv_setErr hi nofun nofun
  | illegal => exact inv_setErr hi nofun nofun
  | data => exact hi
  | same => exact hi

/-- Settles O44: each way a step can change the core keeps the invariant. -/
theorem everyStepKeepsInvariant : Obligations.EveryStepKeepsInvariant :=
  fun _ _ hi h => (step_coreMove h).inv hi

end Sys2Proof.Machine
end

section
/-! PROOFS. The invariant right after reset (10_state.md R44), and which steps write H, LEN, the error bits and DONE
(R20, R25, R30-R32). -/

namespace Sys2Proof.Machine

/-- An IDLE core with no message byte, the IV in H and DONE = 0 tracks the empty message (R209). -/
theorem tracks_nil_of_afterReset {c : CoreState} (h : c.AfterReset) : c.Tracks [] := by
  obtain ⟨hh, hl, hf, hq, hp, hd, -⟩ := h
  have hplaced : c.placed [] = [] := List.take_nil
  have hholds : c.Holds [] := by
    refine ⟨by simp [hf], by simp [hf], by simp [hh, hf, blocks], fun j hj => ?_⟩
    simp [hf] at hj
  exact
    { pending := by simp [hplaced, hq]
      counted := by rw [hl, hplaced]; rfl
      absorbing := fun _ _ => by rw [hplaced]; exact hholds
      inRounds := fun h => by simp [hp] at h
      afterRounds := fun h => by simp [hp] at h
      finalizing := fun h => by simp [hp] at h
      ending := fun h => by simp [hp] at h
      finished := fun h => by simp [hd] at h }

/-- Settles O43: the values of R44 meet each clause. -/
theorem resetStateMeetsInvariant : Obligations.ResetStateMeetsInvariant :=
  ⟨by decide, by decide, by decide, fun _ h => ⟨inv_of_afterReset h, tracks_nil_of_afterReset h⟩⟩

theorem CoreMove.h_writers {s : State} {d : CoreState} (h : CoreMove s d) (hne : d.h ≠ s.core.h) :
    nextAgent s = some .reset ∨ (nextAgent s = some .core ∧ s.core.phase = .addback) ∨
      s.acceptedWord = some 0x00000001 := by
  cases h with
  | reset ha => exact .inl ha
  | core ha _ hd => exact .inr (.inl ⟨ha, (coreStep_writes hd).h.resolve_left hne⟩)
  | init _ hw => exact .inr (.inr hw)
  | _ => exact absurd rfl hne

/-- Settles O47: no other move of the core writes H. -/
theorem runningStateWriters : Obligations.RunningStateWriters :=
  fun _ _ h hne => (step_coreMove h).h_writers hne

theorem CoreMove.len_writers {s : State} {d : CoreState} (h : CoreMove s d) (hne : d.len ≠ s.core.len) :
    nextAgent s = some .reset ∨ s.acceptedWord = some 0x00000001 ∨
      (nextAgent s = some .core ∧ s.core.phase = .absorb ∧ s.core.fill.val < 64 ∧ d.len = s.core.len + 8 ∧
        ∃ b, s.core.pend = b :: d.pend) := by
  cases h with
  | reset ha => exact .inl ha
  | core ha _ hd => exact .inr (.inr ⟨ha, (coreStep_writes hd).placed.resolve_left fun hsame => hne hsame.1⟩)
  | init _ hw => exact .inr (.inl hw)
  | _ => exact absurd rfl hne

/-- Settles O48: no other move of the core writes LEN. -/
theorem lengthCounterWriters : Obligations.LengthCounterWriters :=
  fun _ _ h hne => (step_coreMove h).len_writers hne

theorem CoreMove.err_sticky {s : State} {d : CoreState} (h : CoreMove s d) (he : s.core.err = true)
    (hr : nextAgent s ≠ some .reset) (hw : s.acceptedWord ≠ some 0x00000001) :
    d.err = true ∧ d.ecause = s.core.ecause := by
  cases h with
  | reset ha => exact absurd ha hr
  | core _ _ hd => exact ⟨(coreStep_writes hd).err.trans he, (coreStep_writes hd).ecause⟩
  | init _ hinit => exact absurd hinit hw
  | sequence => exact ⟨rfl, if_pos he⟩
  | illegal => exact ⟨rfl, if_pos he⟩
  | _ => exact ⟨he, rfl⟩

/-- Settles O49: `SetErr` keeps a cause that is there, and no core step writes ERR or ECAUSE. -/
theorem errorIsStickyWithFirstCause : Obligations.ErrorIsStickyWithFirstCause :=
  fun _ _ h he hr hw => (step_coreMove h).err_sticky he hr hw

theorem CoreMove.done_rises {s : State} {d : CoreState} (h : CoreMove s d) (h0 : s.core.done = false)
    (h1 : d.done = true) : nextAgent s = some .core ∧ s.core.phase = .fin2 ∧ d.phase = .idle := by
  have hne : d.done ≠ s.core.done := by simp [h0, h1]
  cases h with
  | reset => cases h1
  | core ha _ hd =>
    obtain ⟨hp, hp', _⟩ := (coreStep_writes hd).done.resolve_left hne
    exact ⟨ha, hp, hp'⟩
  | init => cases h1
  | _ => exact absurd rfl hne

theorem CoreMove.finished_stays {s : State} {d : CoreState} (h : CoreMove s d) (hd : s.core.done = true)
    (hp : s.core.phase = .idle) (hr : nextAgent s ≠ some .reset) (hw : s.acceptedWord ≠ some 0x00000001) :
    d.done = true ∧ d.phase = .idle ∧ d.h = s.core.h ∧ d.len = s.core.len ∧ d.fill = s.core.fill ∧
      d.buf = s.core.buf := by
  cases h with
  | reset ha => exact absurd ha hr
  | core _ hb _ => exact absurd hp hb
  | init _ hinit => exact absurd hinit hw
  | absorb _ _ _ h0 => simp [hd] at h0
  | final _ _ _ h0 => simp [hd] at h0
  | _ => exact ⟨hd, hp, rfl, rfl, rfl, rfl⟩

/-- Settles O51: FIN2 alone sets DONE, and while DONE = 1 the IDLE core takes no ABSORB and no FINAL. -/
theorem finishedDigestStays : Obligations.FinishedDigestStays :=
  ⟨fun _ _ h h0 h1 => (step_coreMove h).done_rises h0 h1,
    fun _ _ h hd hp hr hw => (step_coreMove h).finished_stays hd hp hr hw⟩

end Sys2Proof.Machine
end

section
/-! PROOFS. The register window as the host reads and writes it (10_state.md R35-R41). -/

namespace Sys2Proof.Machine

/-! ### The map (R35) -/

/-- Settles O31: the access at each offset is the access to a register. -/
theorem registerMapOffsets : Obligations.RegisterMapOffsets := by
  refine ⟨fun k => ?_, register_ofReg⟩
  have hmap : ∀ k : Fin 16, BusAccess.mk (4 * k.val : Nat) 4 =
      .ofReg ([Reg.cmd, .data, .status, .lenLo, .lenHi, .rsv14, .rsv18, .rsv1C, .digest0, .digest1, .digest2, .digest3,
        .rsv30, .rsv34, .rsv38, .rsv3C].getD k.val .cmd) := by decide
  rw [hmap, register_ofReg]

/-! ### Writes to the reserved and the read-only registers (R41) -/

/-- The host steps when it is asked for and its line is not held (R190, R205). -/
theorem nextAgent_eq_host {s : State} {op : HostOp} (ht : s.turns.head? = some .host) (hl : s.hostLine = some op)
    (hh : op.held s.core = false) : nextAgent s = some .host := by
  obtain ⟨ts, hts⟩ := List.head?_eq_some_iff.mp ht
  simp [nextAgent, hts, hostFirst, hostMove_eq_some.mpr ⟨hl, hh⟩]

theorem step_of_host {s : State} {op : HostOp} (ha : nextAgent s = some .host) (hl : s.hostLine = some op) :
    step s = hostStep op s.popTurn := by
  have hl' : s.popTurn.hostLine = some op := hl
  simp [step, ha, agentStep, hostMoveStep, hl']

/-- Only a CMD write is ever held (R190). -/
theorem held_wr_ofReg {r : Reg} (h : r ≠ .cmd) (v : Word) (c : CoreState) :
    (HostOp.wr (BusAccess.ofReg r) v).held c = false := by
  have hw : (HostOp.wr (BusAccess.ofReg r) v).commandWord = none := by
    cases r with
    | cmd => exact absurd rfl h
    | _ => rfl
  simp [HostOp.held, hw]

theorem regWrite_of_ne_cmd {r : Reg} (h : r ≠ .cmd) (v : Word) (s : State) :
    regWrite r v s = .next (s.withCore (plainWrite r v s.core)) := by
  cases r with
  | cmd => exact absurd rfl h
  | _ => rfl

theorem hostStep_wr_ofReg (r : Reg) (v : Word) (s : State) :
    hostStep (.wr (BusAccess.ofReg r) v) s = regWrite r v s.hostNext.tick := by
  simp [hostStep, register_ofReg]

theorem regRead_reserved {r : Reg} (h : r ∈ [Reg.rsv14, .rsv18, .rsv1C, .rsv30, .rsv34, .rsv38, .rsv3C]) (s : State) :
    regRead r s = 0 := by
  simp only [List.mem_cons, List.not_mem_nil, or_false] at h
  rcases h with rfl | rfl | rfl | rfl | rfl | rfl | rfl <;> rfl

/-- Settles O37: a write to such a register is a step of the host in any state, and `plainWrite` gives the core back. -/
theorem reservedAndReadOnlyRegisters : Obligations.ReservedAndReadOnlyRegisters := by
  refine ⟨fun s r hr => regRead_reserved hr s, fun s r v hc hd ht hl => ?_⟩
  rw [step_of_host (nextAgent_eq_host ht hl (held_wr_ofReg hc v _)) hl, hostStep_wr_ofReg, regWrite_of_ne_cmd hc,
    plainWrite_of_ne_data hd]
  rfl

/-! ### Reads (R36-R40) -/

theorem regRead_lenLo_toNat {s : State} (h : s.core.phase = .idle) :
    (regRead .lenLo s).toNat = s.core.len.toNat % 2 ^ 32 := by
  simp [regRead, settledWord_of_idle h]

theorem regRead_lenHi_toNat {s : State} (h : s.core.phase = .idle) :
    (regRead .lenHi s).toNat = s.core.len.toNat / 2 ^ 32 := by
  have := s.core.len.isLt
  simp only [regRead, settledWord_of_idle h, BitVec.extractLsb'_toNat, Nat.shiftRight_eq_div_pow]
  omega

/-- Settles O39: with BUSY = 0 no free value enters. -/
theorem registerValues : Obligations.RegisterValues := by
  refine fun s => ⟨rfl, rfl, fun hp => ⟨regRead_lenLo_toNat hp, regRead_lenHi_toNat hp, ?_, ?_, ?_, ?_⟩⟩ <;>
    exact settledWord_of_idle hp _ _

/-! ### STATUS (R38) -/

/-- An append is a sum: the upper part is shifted past the lower one. -/
theorem toNat_append_eq_add {m n : Nat} (x : BitVec m) (y : BitVec n) :
    (x ++ y).toNat = x.toNat * 2 ^ n + y.toNat := by
  rw [BitVec.toNat_append, ← Nat.shiftLeft_add_eq_or_of_lt y.isLt, Nat.shiftLeft_eq]

/-- STATUS as a number: each field at its weight. -/
theorem statusWord_toNat (c : CoreState) (fill : Fin 65) :
    (statusWord c fill).toNat =
      fill.val * 2 ^ 8 + c.ecause.code.toNat * 2 ^ 4 + c.err.toNat * 2 ^ 2 + c.done.toNat * 2 + c.busy.toNat := by
  change (0#17 ++ BitVec.ofNat 7 fill.val ++ 0#2 ++ c.ecause.code ++ 0#1 ++ BitVec.ofBool c.err ++
    BitVec.ofBool c.done ++ BitVec.ofBool c.busy).toNat = _
  have hfill : fill.val % 2 ^ 7 = fill.val := Nat.mod_eq_of_lt (by omega)
  simp only [toNat_append_eq_add, BitVec.toNat_ofBool, BitVec.toNat_ofNat, hfill]
  omega

theorem settledFill_le (s : State) : (settledFill s).val ≤ 64 := Nat.le_of_lt_succ (settledFill s).isLt

/-- A bit of a word whose number has it at that place. -/
theorem getLsbD_of_toNat {w j : Nat} {x : BitVec w} {b : Bool} (h : x.toNat / 2 ^ j % 2 = b.toNat) :
    x.getLsbD j = b := by
  simp [BitVec.getLsbD, Nat.testBit_eq_decide_div_mod_eq, h]

/-- Settles O40: the fields are read off the sum of `statusWord_toNat`. -/
theorem statusFields : Obligations.StatusFields := by
  intro s
  have hsum : (regRead .status s).toNat = _ := statusWord_toNat s.core (settledFill s)
  have hf := settledFill_le s
  have he := s.core.ecause.code.isLt
  have hr := s.core.err.toNat_lt
  have hd := s.core.done.toNat_lt
  have hb := s.core.busy.toNat_lt
  refine ⟨getLsbD_of_toNat (b := s.core.busy) ?_, getLsbD_of_toNat ?_, getLsbD_of_toNat ?_,
    getLsbD_of_toNat (b := false) ?_, ?_, by omega, by omega, fun hp => ?_, by omega⟩
  · omega
  · omega
  · omega
  · rw [Bool.toNat_false]; omega
  · have hcode : (regRead .status s).toNat / 2 ^ 4 % 2 ^ 2 = s.core.ecause.code.toNat := by omega
    rw [hcode]
    cases s.core.ecause <;> rfl
  · rw [settledFill_of_idle hp] at hsum hf
    omega

end Sys2Proof.Machine
end

section
/-! PROOFS. The elements that reset leaves unspecified (10_state.md R44, 41_padding.md R127) are unobservable: two
machines that differ in them alone stay in step. -/

namespace Sys2Proof.Machine

/-! ### Outcomes in step -/

/-- Two outcomes that go on in related states, or stop in the same way. -/
inductive OutcomeRel {σ φ ρ : Type} (R : σ → σ → Prop) : Host.Outcome σ φ ρ → Host.Outcome σ φ ρ → Prop where
  | next {s t : σ} (h : R s t) : OutcomeRel R (.next s) (.next t)
  | fault (f : φ) : OutcomeRel R (.fault f) (.fault f)
  | refused (r : ρ) : OutcomeRel R (.refused r) (.refused r)

theorem OutcomeRel.mapNext {σ τ φ ρ : Type} {R : σ → σ → Prop} {S : τ → τ → Prop} {f g : σ → τ}
    {o o' : Host.Outcome σ φ ρ} (h : OutcomeRel R o o') (hfg : ∀ s t, R s t → S (f s) (g t)) :
    OutcomeRel S (mapNext f o) (mapNext g o') := by
  cases h with
  | next h => exact .next (hfg _ _ h)
  | fault f => exact .fault f
  | refused r => exact .refused r

/-! ### The hidden elements -/

/-- Values for the elements that R44 leaves unspecified. -/
structure Hidden where
  w : Quad
  rnd : Fin 64
  buf : Block
  ret : Ret
  lenDone : Bool

/-- The values of a core itself in those elements. -/
def CoreState.hidden (c : CoreState) : Hidden := ⟨c.w, c.rnd, c.buf, c.ret, c.lenDone⟩

/-- The core with those elements replaced. -/
def CoreState.withHidden (c : CoreState) (u : Hidden) : CoreState :=
  { c with w := u.w, rnd := u.rnd, buf := u.buf, ret := u.ret, lenDone := u.lenDone }

def State.withHidden (s : State) (u : Hidden) : State := s.withCore (s.core.withHidden u)

/-- Replacing the hidden elements of `c` by `u` stays unseen: `u` agrees with `c` on every hidden element that a later
step may still use. These are BUF below FILL, all but LENDONE during a compression, and LENDONE once FIN1 has set it. -/
structure CoreState.Unseen (c : CoreState) (u : Hidden) : Prop where
  filled : ∀ (j : Nat) (hj : j < 64), j < c.fill.val → c.buf[j] = u.buf[j]
  compressing : c.phase = .round ∨ c.phase = .addback → c.w = u.w ∧ c.rnd = u.rnd ∧ c.buf = u.buf ∧ c.ret = u.ret
  lengthPlaced : c.phase = .fin2 ∨ (c.phase = .round ∨ c.phase = .addback) ∧ c.ret = .fin2 → c.lenDone = u.lenDone

/-- `d` is `c` with other values in hidden elements that no later step uses. -/
def CoreState.Alike (c d : CoreState) : Prop := ∃ u, c.Unseen u ∧ d = c.withHidden u

/-- Machines alike in their cores and the same in everything else. -/
def State.Alike (s t : State) : Prop := ∃ u, s.core.Unseen u ∧ t = s.withHidden u

/-- Outside ROUND, ADDBACK and FIN2 only BUF below FILL matters. -/
theorem unseen_of_phase {c : CoreState} {u : Hidden} (h : c.phase = .idle ∨ c.phase = .absorb ∨ c.phase = .fin1)
    (hf : ∀ (j : Nat) (hj : j < 64), j < c.fill.val → c.buf[j] = u.buf[j]) : c.Unseen u := by
  rcases h with h | h | h <;> exact ⟨hf, by simp [h], by simp [h]⟩

/-- A compression that starts with the same BUF and LENDONE does the same. -/
theorem unseen_startCompress {c : CoreState} {r : Ret} {l : Bool} (h : r = .fin2 → c.lenDone = l) :
    (c.startCompress r).Unseen ⟨c.h, 0, c.buf, r, l⟩ :=
  ⟨fun _ _ _ => rfl, fun _ => ⟨rfl, rfl, rfl, rfl⟩, by simpa using h⟩

/-! ### The core's step -/

/-- Both cores take their step, and what is left of the hidden elements to use agrees again. -/
theorem outcomeRel_of_next {o o' : Host.Outcome CoreState Fault Refusal} {d : CoreState} (u : Hidden) (h : o = .next d)
    (h' : o' = .next (d.withHidden u)) (hu : d.Unseen u) : OutcomeRel CoreState.Alike o o' := by
  rw [h, h']
  exact .next ⟨u, hu, rfl⟩

theorem absorb_alike {c : CoreState} {u : Hidden} (hp : c.phase = .absorb) (hu : c.Unseen u) :
    OutcomeRel CoreState.Alike (coreStep c) (coreStep (c.withHidden u)) := by
  by_cases hf : c.fill.val < 64
  · cases hq : c.pend with
    | nil =>
      exact outcomeRel_of_next u (coreStep_absorb_end hp hf hq) (coreStep_absorb_end hp hf hq)
        (unseen_of_phase (.inl rfl) hu.filled)
    | cons b rest =>
      refine outcomeRel_of_next { u with buf := u.buf.set c.fill.val b hf } (coreStep_place hp hf hq)
        (coreStep_place (c := c.withHidden u) hp hf hq) (unseen_of_phase (.inr (.inl hp)) fun j hj hlt => ?_)
      have hlt' : j < c.fill.val + 1 := hlt
      rw [CoreState.placeByte_buf, Vector.getElem_set, Vector.getElem_set]
      split
      · rfl
      · exact hu.filled j hj (by omega)
  · have hbuf : c.buf = u.buf := Vector.ext fun j hj => hu.filled j hj (by omega)
    refine outcomeRel_of_next ⟨c.h, 0, c.buf, .absorb, u.lenDone⟩ (coreStep_absorb_full hp hf) ?_
      (unseen_startCompress nofun)
    rw [coreStep_absorb_full (c := c.withHidden u) hp hf, hbuf]; rfl

theorem round_alike {c : CoreState} {u : Hidden} (hp : c.phase = .round) (hu : c.Unseen u) :
    OutcomeRel CoreState.Alike (coreStep c) (coreStep (c.withHidden u)) := by
  obtain ⟨w, rnd, buf, ret, l⟩ := u
  obtain ⟨rfl, rfl, rfl, rfl⟩ := hu.compressing (.inl hp)
  have hl (hr : c.ret = .fin2) : c.lenDone = l := hu.lengthPlaced (.inr ⟨.inl hp, hr⟩)
  by_cases hr : c.rnd = 63
  · exact outcomeRel_of_next ⟨md5Round c.rnd c.w (blockWords c.buf), c.rnd, c.buf, c.ret, l⟩
      (coreStep_last_round hp hr) (coreStep_last_round hp hr)
      ⟨fun _ _ _ => rfl, fun _ => ⟨rfl, rfl, rfl, rfl⟩, by simpa using hl⟩
  · exact outcomeRel_of_next ⟨md5Round c.rnd c.w (blockWords c.buf), c.rnd + 1, c.buf, c.ret, l⟩
      (coreStep_round hp hr) (coreStep_round hp hr)
      ⟨fun _ _ _ => rfl, fun _ => ⟨rfl, rfl, rfl, rfl⟩, by simpa [hp] using hl⟩

theorem addback_alike {c : CoreState} {u : Hidden} (hp : c.phase = .addback) (hu : c.Unseen u) :
    OutcomeRel CoreState.Alike (coreStep c) (coreStep (c.withHidden u)) := by
  obtain ⟨w, rnd, buf, ret, l⟩ := u
  obtain ⟨rfl, rfl, rfl, rfl⟩ := hu.compressing (.inr hp)
  have hl (hr : c.ret = .fin2) : c.lenDone = l := hu.lengthPlaced (.inr ⟨.inr hp, hr⟩)
  refine outcomeRel_of_next ⟨c.w, c.rnd, c.buf, c.ret, l⟩ (coreStep_addback hp) (coreStep_addback hp)
    ⟨fun _ _ _ => rfl, fun _ => ⟨rfl, rfl, rfl, rfl⟩, ?_⟩
  cases hr : c.ret <;> simp [hr, Ret.phase, hl]

theorem fin1_alike {c : CoreState} {u : Hidden} (hp : c.phase = .fin1) (hu : c.Unseen u) :
    OutcomeRel CoreState.Alike (coreStep c) (coreStep (c.withHidden u)) := by
  by_cases hf : c.fill.val < 64
  · refine outcomeRel_of_next ⟨c.h, 0, fin1Block c.buf c.fill.val hf c.len, .fin2, decide (c.fill.val ≤ 55)⟩
      (coreStep_fin1 hp hf) ?_ (unseen_startCompress fun _ => rfl)
    rw [coreStep_fin1 (c := c.withHidden u) hp hf, fin1Block_congr _ _ _ hf _ hu.filled]; rfl
  · rw [coreStep_fin1_full hp hf, coreStep_fin1_full (c := c.withHidden u) hp hf]
    exact .fault _

theorem fin2_alike {c : CoreState} {u : Hidden} (hp : c.phase = .fin2) (hu : c.Unseen u) :
    OutcomeRel CoreState.Alike (coreStep c) (coreStep (c.withHidden u)) := by
  have hul : u.lenDone = c.lenDone := (hu.lengthPlaced (.inl hp)).symm
  cases hl : c.lenDone with
  | true =>
    exact outcomeRel_of_next u (coreStep_fin2_done hp hl) (coreStep_fin2_done hp (hul.trans hl))
      (unseen_of_phase (.inl rfl) hu.filled)
  | false =>
    refine outcomeRel_of_next ⟨c.h, 0, lengthBlock c.buf c.len, .fin2, true⟩ (coreStep_fin2_length hp hl) ?_
      (unseen_startCompress fun _ => rfl)
    rw [coreStep_fin2_length (c := c.withHidden u) hp (hul.trans hl), lengthBlock_congr c.buf u.buf]; rfl

/-- A core step uses no hidden element but those of `Unseen`, and keeps cores alike. -/
theorem coreStep_alike {c : CoreState} {u : Hidden} (hu : c.Unseen u) :
    OutcomeRel CoreState.Alike (coreStep c) (coreStep (c.withHidden u)) := by
  cases hp : c.phase with
  | idle => exact outcomeRel_of_next u (coreStep_of_idle hp) (coreStep_of_idle hp) hu
  | absorb => exact absorb_alike hp hu
  | round => exact round_alike hp hu
  | addback => exact addback_alike hp hu
  | fin1 => exact fin1_alike hp hu
  | fin2 => exact fin2_alike hp hu

/-! ### The machine -/

/-- No register shows a hidden element. -/
theorem regRead_withHidden (r : Reg) (s : State) (u : Hidden) : regRead r (s.withHidden u) = regRead r s := by
  cases r <;> rfl

theorem nextAgent_withHidden (s : State) (u : Hidden) : nextAgent (s.withHidden u) = nextAgent s := rfl

theorem unlessDone_alike {s : State} {u : Hidden} {act : CoreState → CoreState} (hp : s.core.phase = .idle)
    (hu : s.core.Unseen u) (hact : (act s.core).Unseen u)
    (hcomm : act (s.core.withHidden u) = (act s.core).withHidden u) :
    OutcomeRel State.Alike (unlessDone act s) (unlessDone act (s.withHidden u)) := by
  have hdone : (s.withHidden u).core.done = s.core.done := rfl
  simp only [unlessDone, hdone]
  split
  · exact .next ⟨u, unseen_of_phase (.inl hp) hu.filled, rfl⟩
  · exact .next ⟨u, hact, congrArg s.withCore hcomm⟩

/-- Accepting a command uses no hidden element (R192-R196). -/
theorem exec_alike {s : State} {u : Hidden} (hp : s.core.phase = .idle) (hu : s.core.Unseen u) (i : Instr) :
    OutcomeRel State.Alike (exec i s) (exec i (s.withHidden u)) := by
  cases i with
  | nop => exact .next ⟨u, hu, rfl⟩
  | init => exact .next ⟨u, unseen_of_phase (.inl hp) nofun, rfl⟩
  | absorb n =>
    exact unlessDone_alike (act := fun c => { c with pend := dataBytes c.data n, phase := .absorb }) hp hu
      (unseen_of_phase (.inr (.inl rfl)) hu.filled) rfl
  | final =>
    exact unlessDone_alike (act := fun c => { c with phase := .fin1 }) hp hu
      (unseen_of_phase (.inr (.inr rfl)) hu.filled) rfl

theorem accept_alike {s : State} {u : Hidden} (hp : s.core.phase = .idle) (hu : s.core.Unseen u) (c : Word) :
    OutcomeRel State.Alike (accept c s) (accept c (s.withHidden u)) := by
  unfold accept
  cases decode c with
  | ok i => exact exec_alike hp hu i
  | error e => exact .next ⟨u, unseen_of_phase (.inl hp) hu.filled, rfl⟩

/-- A write to a register other than CMD uses and changes no hidden element (R41, R208). -/
theorem plainWrite_alike {s : State} {u : Hidden} (hu : s.core.Unseen u) {r : Reg} (hr : r ≠ .cmd) (v : Word) :
    OutcomeRel State.Alike (regWrite r v s) (regWrite r v (s.withHidden u)) := by
  by_cases hd : r = .data
  · subst hd
    exact .next ⟨u, ⟨hu.filled, hu.compressing, hu.lengthPlaced⟩, rfl⟩
  · rw [regWrite_of_ne_cmd hr, regWrite_of_ne_cmd hr, plainWrite_of_ne_data hd, plainWrite_of_ne_data hd]
    exact .next ⟨u, hu, rfl⟩

/-- A line of the host does the same on machines alike, and reads the same (R87). -/
theorem hostStep_alike {s : State} {u : Hidden} (hu : s.core.Unseen u) {op : HostOp} (hh : op.held s.core = false) :
    OutcomeRel State.Alike (hostStep op s) (hostStep op (s.withHidden u)) := by
  cases op with
  | wr a v =>
    cases hr : a.register with
    | error e => simp only [hostStep, hr]; exact .refused e
    | ok r =>
      simp only [hostStep, hr]
      by_cases hc : r = .cmd
      · subst hc
        exact accept_alike (s := s.hostNext.tick) (held_commandWord hh (commandWord_of_register_cmd hr v)) hu v
      · exact plainWrite_alike (s := s.hostNext.tick) hu hc v
  | rd a name =>
    cases hr : a.register with
    | error e => simp only [hostStep, hr]; exact .refused e
    | ok r =>
      simp only [hostStep, hr, regRead_withHidden]
      exact .next ⟨u, hu, rfl⟩
  | bnz name mask target =>
    have hname : (s.withHidden u).nameValue name = s.nameValue name := rfl
    cases hv : s.nameValue name with
    | none => simp only [hostStep, hname, hv]; exact .refused _
    | some v =>
      simp only [hostStep, hname, hv]
      split
      · exact .next ⟨u, hu, rfl⟩
      · exact .next ⟨u, hu, rfl⟩

/-- A core agrees with its own hidden elements. -/
theorem unseen_hidden (c : CoreState) : c.Unseen c.hidden :=
  ⟨fun _ _ _ => rfl, fun _ => ⟨rfl, rfl, rfl, rfl⟩, fun _ => rfl⟩

/-- A step of the machine keeps machines alike, and stops both or neither. -/
theorem step_alike {s : State} {u : Hidden} (hu : s.core.Unseen u) :
    OutcomeRel State.Alike (step s) (step (s.withHidden u)) := by
  rw [step, step, nextAgent_withHidden]
  cases ha : nextAgent s with
  | none => exact .next ⟨u, hu, rfl⟩
  | some who =>
    cases who with
    | reset => exact .next ⟨CoreState.reset.hidden, unseen_hidden _, rfl⟩
    | core =>
      refine (coreStep_alike hu).mapNext ?_
      rintro c _ ⟨u', hu', rfl⟩
      exact ⟨u', hu', rfl⟩
    | host =>
      obtain ⟨op, hl, hh⟩ := nextAgent_host ha
      have hl' : s.popTurn.hostLine = some op := hl
      have hl'' : (s.withHidden u).popTurn.hostLine = some op := hl
      simp only [agentStep, hostMoveStep, hl', hl'']
      exact hostStep_alike (s := s.popTurn) hu hh

/-- So does a run of any length. -/
theorem machineRun_alike (k : Nat) {s : State} {u : Hidden} (hu : s.core.Unseen u) :
    OutcomeRel State.Alike (machineRun k s) (machineRun k (s.withHidden u)) := by
  induction k generalizing s u with
  | zero => exact .next ⟨u, hu, rfl⟩
  | succ k ih =>
    have hstep := step_alike hu
    rw [machineRun, machineRun]
    generalize step s = o, step (s.withHidden u) = o' at hstep
    cases hstep with
    | next h =>
      obtain ⟨u', hu', rfl⟩ := h
      exact ih hu'
    | fault f => exact .fault f
    | refused r => exact .refused r

/-- Two cores that R44 allows after reset differ in hidden elements only. -/
theorem eq_withHidden_of_afterReset {c d : CoreState} (hc : c.AfterReset) (hd : d.AfterReset) :
    d = c.withHidden d.hidden := by
  cases c; cases d
  simp_all [CoreState.AfterReset, CoreState.withHidden, CoreState.hidden]

/-- None of those is used before it is written: FILL is 0 and the core is IDLE (R44, R127). -/
theorem unseen_of_afterReset {c : CoreState} (hc : c.AfterReset) (u : Hidden) : c.Unseen u := by
  obtain ⟨_, _, hf, _, hp, _⟩ := hc
  exact unseen_of_phase (.inl hp) fun j _ hlt => by simp [hf] at hlt

/-- Settles O57: the two machines are alike at the start, so they are alike to the end of every run. -/
theorem unspecifiedResetValuesAreUnobservable : Obligations.UnspecifiedResetValuesAreUnobservable := by
  intro s c d k hc hd
  have hrel : OutcomeRel State.Alike (machineRun k (s.withCore c)) (machineRun k (s.withCore d)) := by
    rw [eq_withHidden_of_afterReset hc hd]
    exact machineRun_alike k (s := s.withCore c) (unseen_of_afterReset hc _)
  change (∀ s', machineRun k (s.withCore c) = .next s' → ∃ t', machineRun k (s.withCore d) = .next t' ∧ _) ∧
    ∀ r, machineRun k (s.withCore c) = .refused r → machineRun k (s.withCore d) = .refused r
  generalize machineRun k (s.withCore c) = o, machineRun k (s.withCore d) = o' at hrel
  cases hrel with
  | next h =>
    obtain ⟨u, _, rfl⟩ := h
    refine ⟨fun s' hs' => ?_, nofun⟩
    cases hs'
    exact ⟨_, rfl, rfl, rfl, rfl, rfl, rfl, rfl, rfl, rfl, rfl⟩
  | fault f => exact ⟨nofun, nofun⟩
  | refused r => exact ⟨nofun, fun _ hr => hr⟩

end Sys2Proof.Machine
end

section
/-! PROOFS. The bytes of a word (00_scope.md R10), the operand of ABSORB and the words of a block (20_memory.md R61,
R64). -/

namespace Sys2Proof.Machine

/-! ### The bytes of a word (R10) -/

theorem wordByte_eq_ofNat (x : Word) (k : Nat) : wordByte x k = BitVec.ofNat 8 (x.toNat / 2 ^ (8 * k)) := by
  rw [← Nat.shiftRight_eq_div_pow]; rfl

@[simp] theorem wordByte_toNat (x : Word) (k : Nat) : (wordByte x k).toNat = x.toNat / 2 ^ (8 * k) % 2 ^ 8 := by
  rw [wordByte_eq_ofNat, BitVec.toNat_ofNat]

theorem le32_toNat (b0 b1 b2 b3 : Byte) :
    (le32 b0 b1 b2 b3).toNat = b0.toNat + 2 ^ 8 * b1.toNat + 2 ^ 16 * b2.toNat + 2 ^ 24 * b3.toNat := by
  change (b3 ++ b2 ++ b1 ++ b0).toNat = _
  simp only [toNat_append_eq_add]
  omega

/-- `le32` keeps each byte at its place, least significant first. -/
theorem wordByte_le32 (b : Fin 4 → Byte) (k : Fin 4) : wordByte (le32 (b 0) (b 1) (b 2) (b 3)) k.val = b k := by
  apply BitVec.eq_of_toNat_eq
  rw [wordByte_toNat, le32_toNat]
  have h0 := (b 0).isLt
  have h1 := (b 1).isLt
  have h2 := (b 2).isLt
  match k with
  | 0 => change _ / 2 ^ 0 % 2 ^ 8 = _; omega
  | 1 => change _ / 2 ^ 8 % 2 ^ 8 = _; omega
  | 2 => change _ / 2 ^ 16 % 2 ^ 8 = _; omega
  | 3 => change _ / 2 ^ 24 % 2 ^ 8 = _; omega

@[simp] theorem bytes32_le32 (b0 b1 b2 b3 : Byte) : bytes32 (le32 b0 b1 b2 b3) = [b0, b1, b2, b3] := by
  have h := wordByte_le32 ![b0, b1, b2, b3]
  simp only [bytes32, List.cons.injEq, and_true]
  exact ⟨h 0, h 1, h 2, h 3⟩

theorem bytes32_eq_map (x : Word) : bytes32 x = (List.range 4).map (wordByte x) := rfl

/-! ### ABSORB (R64, R194) -/

theorem dataBytes_eq_map (x : Word) {n : Nat} (h : n ≤ 4) :
    dataBytes x n = (List.range n).map fun k => BitVec.ofNat 8 (x.toNat / 2 ^ (8 * k)) := by
  rw [dataBytes, bytes32_eq_map, ← List.map_take, List.take_range, Nat.min_eq_left h]
  exact List.map_congr_left fun k _ => wordByte_eq_ofNat x k

theorem dataBytes_le32 (b0 b1 b2 b3 : Byte) : dataBytes (le32 b0 b1 b2 b3) 4 = [b0, b1, b2, b3] := by
  rw [dataBytes, bytes32_le32]; rfl

theorem unlessDone_of_not_done {s : State} (h : s.core.done = false) (act : CoreState → CoreState) :
    unlessDone act s = .next (s.withCore (act s.core)) := by
  simp [unlessDone, h]

theorem exec_absorb_of_not_done {s : State} (h : s.core.done = false) (n : Nat) :
    exec (.absorb n) s =
      .next (s.withCore { s.core with pend := dataBytes s.core.data n, phase := .absorb }) :=
  unlessDone_of_not_done h fun c => { c with pend := dataBytes c.data n, phase := .absorb }

/-- Settles O7: PEND is `dataBytes` of DATA, and these are its bytes from the least significant one on. -/
theorem absorbTakesDataBytes : Obligations.AbsorbTakesDataBytes := by
  refine ⟨fun s n _ hn _ hd => ?_, fun s b0 b1 b2 b3 _ hd hdata => ?_⟩
  · rw [exec_absorb_of_not_done hd, dataBytes_eq_map _ hn]; rfl
  · have hle : s.core.data = le32 b0 b1 b2 b3 := BitVec.eq_of_toNat_eq (hdata.trans (le32_toNat b0 b1 b2 b3).symm)
    rw [exec_absorb_of_not_done hd, hle, dataBytes_le32]; rfl

/-! ### The words of a block (R61) -/

/-- Byte `k` of word `j` is byte `4j + k` of the block. -/
theorem wordByte_blockWords (b : Block) (j : Fin 16) (k : Fin 4) :
    wordByte (blockWords b)[j] k.val = b[4 * j.val + k.val] := by
  rw [Fin.getElem_fin, blockWords_getElem]
  exact wordByte_le32 (fun k => b[4 * j.val + k.val]) k

/-- Settles O24: each byte of a word of the block is read off by `wordByte_blockWords`. -/
theorem blockWordsAreLittleEndian : Obligations.BlockWordsAreLittleEndian := by
  refine ⟨fun b j k p hp => ?_, fun b h0 h1 h2 h3 => ?_⟩
  · rw [← wordByte_toNat, wordByte_blockWords, Fin.getElem_fin]
    simp only [hp]
  · rw [blockWords_getElem b 0 (by decide)]
    simp only [Nat.mul_zero, Nat.zero_add, h0, h1, h2, h3]
    decide

end Sys2Proof.Machine
end

section
/-! PROOFS. The accesses that the window admits, and the refusal of every other one (20_memory.md R66). -/

namespace Sys2Proof.Machine

/-! ### The admitted accesses -/

theorem Reg.offset_of_ofOffset {n : Nat} {r : Reg} (h : Reg.ofOffset n = some r) : r.offset = n := by
  unfold Reg.ofOffset at h
  split at h <;> cases h <;> rfl

theorem Reg.offset_le (r : Reg) : r.offset ≤ 0x3C := by cases r <;> decide

theorem Reg.offset_aligned (r : Reg) : r.offset % 4 = 0 := by cases r <;> decide

/-- A register is reached by its aligned 4-byte access alone (R35, R66). -/
theorem register_eq_ok {a : BusAccess} {r : Reg} : a.register = .ok r ↔ a = .ofReg r := by
  refine ⟨fun h => ?_, fun h => h ▸ register_ofReg r⟩
  obtain ⟨offset, bytes⟩ := a
  simp only [BusAccess.register] at h
  split at h
  case isTrue => cases h
  case isFalse hw =>
    split at h
    case isTrue => cases h
    case isFalse ho =>
      split at h
      next r' hr =>
        cases h
        have := Reg.offset_of_ofOffset hr
        simp only [BusAccess.ofReg, BusAccess.mk.injEq]
        omega
      next => cases h

theorem register_admitted_iff (a : BusAccess) :
    (∃ r, a.register = .ok r) ↔ a.bytes = 4 ∧ 0 ≤ a.offset ∧ a.offset ≤ 0x3C ∧ a.offset % 4 = 0 := by
  constructor
  · rintro ⟨r, hr⟩
    obtain rfl := register_eq_ok.mp hr
    have hle := r.offset_le
    have hal := r.offset_aligned
    refine ⟨rfl, ?_, ?_, ?_⟩ <;> simp only [BusAccess.ofReg] <;> omega
  · rintro ⟨hb, h0, hle, hal⟩
    obtain ⟨offset, bytes⟩ := a
    obtain ⟨k, rfl⟩ : ∃ k : Fin 16, offset = (4 * k.val : Nat) :=
      ⟨⟨offset.toNat / 4, by simp only at hle; omega⟩, by simp only at h0 hal ⊢; omega⟩
    obtain rfl : bytes = 4 := hb
    exact ⟨_, registerMapOffsets.1 k⟩

/-! ### The other accesses -/

/-- An access that reaches no register is no CMD write, so no busy core holds it, and the host's step is refused. -/
theorem step_refused_of_register_error {s : State} {a : BusAccess} {e : Refusal} (ht : s.turns.head? = some .host)
    (hr : a.register = .error e)
    (hl : (∃ v, s.hostLine = some (.wr a v)) ∨ ∃ name, s.hostLine = some (.rd a name)) :
    step s = .refused e := by
  rcases hl with ⟨v, hl⟩ | ⟨name, hl⟩
  · have hh : (HostOp.wr a v).held s.core = false := by simp [HostOp.held, HostOp.commandWord, hr]
    rw [step_of_host (nextAgent_eq_host ht hl hh) hl]
    simp [hostStep, hr]
  · rw [step_of_host (nextAgent_eq_host ht hl rfl) hl]
    simp [hostStep, hr]

/-- Settles O32: only the access to a register reaches one, and a host line with any other access is refused. -/
theorem otherAccessesAreRefused : Obligations.OtherAccessesAreRefused := by
  refine ⟨register_admitted_iff, fun s a ht hna hl => ?_⟩
  cases hr : a.register with
  | ok r => exact absurd ((register_admitted_iff a).mp ⟨r, hr⟩) hna
  | error e => exact ⟨e, step_refused_of_register_error ht hr hl⟩

end Sys2Proof.Machine
end

section
/-! PROOFS. The command words: decoder and encoder agree, the legal words, and the one effect of an illegal word
(30_encoding.md R80-R85). -/

namespace Sys2Proof.Machine

/-! ### The decoder by its fields, and the round trip with the encoder (R80-R82, R85) -/

/-- The opcode map read backwards: the fields of the words of each command (R81, R82). -/
theorem decode_eq_ok_iff {c : Word} {i : Instr} :
    decode c = .ok i ↔ rsvField c = 0 ∧
      (opField c = 0 ∧ nbm1Field c = 0 ∧ i = .nop ∨
        opField c = 1 ∧ nbm1Field c = 0 ∧ i = .init ∨
        opField c = 2 ∧ i = .absorb ((nbm1Field c).toNat + 1) ∨
        opField c = 3 ∧ nbm1Field c = 0 ∧ i = .final) := by
  unfold decode decodeOp
  split
  case isFalse hr => simp only [hr, reduceCtorEq, false_and]
  case isTrue hr =>
    split
    case isTrue ho => simp [hr, ho, decodePlain_eq_ok, @eq_comm _ i]
    split
    case isTrue ho => simp [hr, ho, decodePlain_eq_ok, @eq_comm _ i]
    split
    case isTrue ho => simp [hr, ho, @eq_comm _ i]
    split
    case isTrue ho => simp [hr, ho, decodePlain_eq_ok, @eq_comm _ i]
    case isFalse h0 h1 h2 h3 => simp only [h0, h1, h2, h3, reduceCtorEq, false_and, and_false, or_false]

/-- The commands that the encoding can express, in the order of the opcode map (R81). -/
def commands : List Instr := [.nop, .init, .absorb 1, .absorb 2, .absorb 3, .absorb 4, .final]

theorem absorb_wellFormed_iff {n : Nat} : (Instr.absorb n).WellFormed ↔ 1 ≤ n ∧ n ≤ 4 := by
  simp [Instr.WellFormed, Instr.wellFormed]

theorem mem_commands {i : Instr} : i ∈ commands ↔ i.WellFormed := by
  cases i with
  | nop => decide
  | init => decide
  | absorb n =>
    have hmem : .absorb n ∈ commands ↔ n = 1 ∨ n = 2 ∨ n = 3 ∨ n = 4 := by simp [commands]
    rw [hmem, absorb_wellFormed_iff]
    omega
  | final => decide

theorem decode_encode {i : Instr} (h : i.WellFormed) : decode (encode i) = .ok i := by
  have hall : ∀ j ∈ commands, decode (encode j) = .ok j := by decide
  exact hall i (mem_commands.mpr h)

theorem wellFormed_of_decode {c : Word} {i : Instr} (h : decode c = .ok i) : i.WellFormed := by
  obtain ⟨-, ⟨-, -, rfl⟩ | ⟨-, -, rfl⟩ | ⟨-, rfl⟩ | ⟨-, -, rfl⟩⟩ := decode_eq_ok_iff.mp h
  · rfl
  · rfl
  · exact absorb_wellFormed_iff.mpr ⟨by omega, (nbm1Field c).isLt⟩
  · rfl

/-- The table's word of ABSORB has its byte count less one in NBM1 (R81, R82). -/
theorem encode_absorb_eq_fields (x : BitVec 2) :
    encode (.absorb (x.toNat + 1)) = (0 : BitVec 26) ++ x ++ (2 : BitVec 4) := by
  revert x; decide

/-- The fields that a command fixes are the whole word, so the command's word is the decoded one. -/
theorem encode_of_decode {c : Word} {i : Instr} (h : decode c = .ok i) : encode i = c := by
  obtain ⟨hr, hcase⟩ := decode_eq_ok_iff.mp h
  have hc := word_eq_fields c
  rw [hr] at hc
  obtain ⟨ho, hn, rfl⟩ | ⟨ho, hn, rfl⟩ | ⟨ho, rfl⟩ | ⟨ho, hn, rfl⟩ := hcase
  · rw [ho, hn] at hc; exact hc
  · rw [ho, hn] at hc; exact hc
  · rw [ho] at hc; exact (encode_absorb_eq_fields _).trans hc
  · rw [ho, hn] at hc; exact hc

/-- Settles O3: decoding gives a well-formed command whose word is the decoded one, and every well-formed command
decodes from its word. -/
theorem decodeAndEncodeAgree : Obligations.DecodeAndEncodeAgree := by
  refine fun c i => ⟨fun h => ⟨wellFormed_of_decode h, encode_of_decode h⟩, ?_⟩
  rintro ⟨hw, rfl⟩
  exact decode_encode hw

/-! ### The fields as numbers (R80) -/

theorem opField_toNat (c : Word) : (opField c).toNat = c.toNat % 16 := by
  simp [opField]

theorem nbm1Field_toNat (c : Word) : (nbm1Field c).toNat = c.toNat / 16 % 4 := by
  simp [nbm1Field, Nat.shiftRight_eq_div_pow]

theorem rsvField_toNat (c : Word) : (rsvField c).toNat = c.toNat / 64 := by
  have := c.isLt
  simp only [rsvField, BitVec.extractLsb'_toNat, Nat.shiftRight_eq_div_pow]
  omega

/-! ### The legal words (R83) -/

theorem legal_iff_fields (c : Word) :
    legal c = true ↔ rsvField c = 0 ∧
      (opField c = 2 ∨ (opField c = 0 ∨ opField c = 1 ∨ opField c = 3) ∧ nbm1Field c = 0) := by
  simp [legal, rsvField, opField, nbm1Field, or_assoc]

theorem legal_iff_toNat (c : Word) :
    legal c = true ↔ c.toNat / 64 = 0 ∧
      (c.toNat % 16 = 2 ∨ (c.toNat % 16 = 0 ∨ c.toNat % 16 = 1 ∨ c.toNat % 16 = 3) ∧ c.toNat / 16 % 4 = 0) := by
  rw [legal_iff_fields]
  simp only [← BitVec.toNat_inj, opField_toNat, nbm1Field_toNat, rsvField_toNat]
  rfl

theorem legal_iff_decodes (c : Word) : legal c = true ↔ ∃ i, decode c = .ok i := by
  rw [legal_iff_fields]
  simp only [decode_eq_ok_iff]
  constructor
  · rintro ⟨hr, ho | ⟨ho | ho | ho, hn⟩⟩
    · exact ⟨_, hr, .inr (.inr (.inl ⟨ho, rfl⟩))⟩
    · exact ⟨_, hr, .inl ⟨ho, hn, rfl⟩⟩
    · exact ⟨_, hr, .inr (.inl ⟨ho, hn, rfl⟩)⟩
    · exact ⟨_, hr, .inr (.inr (.inr ⟨ho, hn, rfl⟩))⟩
  · rintro ⟨i, hr, ⟨ho, hn, -⟩ | ⟨ho, hn, -⟩ | ⟨ho, -⟩ | ⟨ho, hn, -⟩⟩
    · exact ⟨hr, .inr ⟨.inl ho, hn⟩⟩
    · exact ⟨hr, .inr ⟨.inr (.inl ho), hn⟩⟩
    · exact ⟨hr, .inl ho⟩
    · exact ⟨hr, .inr ⟨.inr (.inr ho), hn⟩⟩

theorem legal_iff_mem (c : Word) : legal c = true ↔ c ∈ commands.map encode := by
  simp only [legal_iff_decodes, List.mem_map, mem_commands, decodeAndEncodeAgree c]

/-- Settles O2: the seven listed words are the words of the seven commands, by the round trip. -/
theorem legalWordsAreTheSevenListed : Obligations.LegalWordsAreTheSevenListed :=
  fun c => ⟨legal_iff_toNat c, by simpa [commands, encode] using legal_iff_mem c, legal_iff_decodes c⟩

/-! ### The opcode map and the illegal words (R81, R84) -/

/-- The kinds of illegal word: a reserved opcode, RSV not zero, NBM1 not zero outside ABSORB (R84). -/
theorem legal_eq_false {c : Word}
    (h : 4 ≤ c.toNat % 16 ∨ c.toNat / 64 ≠ 0 ∨ c.toNat % 16 ≠ 2 ∧ c.toNat / 16 % 4 ≠ 0) : legal c = false := by
  rw [← Bool.not_eq_true, legal_iff_toNat]
  omega

/-- Settles O1: each word is the encoding of its command, and a reserved opcode makes a word illegal. -/
theorem opcodeMapWordsDecode : Obligations.OpcodeMapWordsDecode := by
  refine ⟨decode_encode (i := .nop) rfl, decode_encode (i := .init) rfl, decode_encode (i := .absorb 1) rfl,
    decode_encode (i := .absorb 2) rfl, decode_encode (i := .absorb 3) rfl, decode_encode (i := .absorb 4) rfl,
    decode_encode (i := .final) rfl, fun c hc i hi => ?_⟩
  have hlegal := (legal_iff_decodes c).mpr ⟨i, hi⟩
  rw [legal_eq_false (.inl hc)] at hlegal
  cases hlegal

/-- An illegal word decodes to no command, so `Accept` takes its first branch (R84, R196). -/
theorem accept_of_illegal {c : Word} (h : legal c = false) (s : State) :
    accept c s = .next (s.withCore (s.core.setErr .illegalCommand)) := by
  unfold accept
  cases hd : decode c with
  | ok i => simp [(legal_iff_decodes c).mpr ⟨i, hd⟩] at h
  | error e => rfl

/-- Settles O10: the frame is that of `setErr`. -/
theorem illegalWordOnlySetsError : Obligations.IllegalWordOnlySetsError :=
  ⟨fun s _ _ hl => accept_of_illegal hl s, fun _ h => legal_eq_false h⟩

end Sys2Proof.Machine
end

section
/-! PROOFS. The rotation schedule of the ROM (40_constants.md R101). -/

namespace Sys2Proof.Machine

/-- `romS` reads the group of the round's band at the round's position. -/
theorem romS_of_band {i : Fin 64} (q : Fin 4) (h : i.val / 16 = q.val) :
    romS i = (rotationGroup q).getD (i.val % 4) 0 := by
  simp only [romS, h]

theorem rotationGroup_bounds (q p : Fin 4) :
    4 ≤ (rotationGroup q).getD p.val 0 ∧ (rotationGroup q).getD p.val 0 ≤ 23 := by
  decide +revert

/-- Settles O21: `romS` reads the group of its band, and every entry of a group is in 4..23. -/
theorem rotationSchedule : Obligations.RotationSchedule := fun i =>
  ⟨romS_of_band 0, romS_of_band 1, romS_of_band 2, romS_of_band 3,
    rotationGroup_bounds ⟨i.val / 16, by omega⟩ ⟨i.val % 4, by omega⟩⟩

end Sys2Proof.Machine
end

section
/-! PROOFS. The round constants are those of the sine formula (40_constants.md R102, R103).

`sin n` is the imaginary part of `exp I ^ n`. A partial sum of the exponential series gives `exp I` up to `10⁻¹⁸` as a
Gaussian integer over `19!`. It lies in the unit disc, so the error of its `n`-th power is at most `n` times that one,
while `|sin n| * 2^32` keeps more than a hundredth away from the integers for the 64 arguments of the ROM (R103). -/

namespace Sys2Proof.Machine

open Complex (I exp)
open Nat (factorial)

/-! ### An approximation of `exp I` -/

/-- `19!` times the first twenty terms of the exponential series at `I`. -/
def unitTurn : GaussianInt := ⟨65725128248453315, 102360822438075317⟩

theorem sum_exp_series_I : ∑ m ∈ Finset.range 20, I ^ m / (factorial m : ℂ) = unitTurn / factorial 19 := by
  apply Complex.ext <;> norm_num [Finset.sum_range_succ, factorial, pow_succ, unitTurn]

theorem norm_exp_I_sub_unitTurn_le : ‖exp I - unitTurn / factorial 19‖ ≤ 1 / 10 ^ 18 := by
  rw [← sum_exp_series_I]
  refine (Complex.exp_bound (by simp) (by norm_num)).trans ?_
  norm_num [factorial]

theorem norm_unitTurn_le_one : ‖(unitTurn : ℂ) / factorial 19‖ ≤ 1 := by
  have hsq : ‖(unitTurn : ℂ)‖ ^ 2 ≤ (factorial 19 : ℝ) ^ 2 := by
    rw [← Complex.normSq_eq_norm_sq, ← GaussianInt.intCast_real_norm]
    exact_mod_cast (by decide : unitTurn.norm ≤ (factorial 19 : ℤ) ^ 2)
  have hle := (pow_le_pow_iff_left₀ (norm_nonneg _) (by positivity) two_ne_zero).mp hsq
  rw [norm_div, Complex.norm_natCast]
  exact div_le_one_of_le₀ hle (by positivity)

/-! ### The sine of a natural number -/

/-- In the unit disc each factor of a power adds the error of the base at most once. -/
theorem norm_pow_sub_pow_le {z w : ℂ} (hz : ‖z‖ ≤ 1) (hw : ‖w‖ ≤ 1) (n : ℕ) : ‖z ^ n - w ^ n‖ ≤ n * ‖z - w‖ := by
  induction n with
  | zero => simp
  | succ n ih =>
    calc ‖z ^ (n + 1) - w ^ (n + 1)‖ = ‖z ^ n * (z - w) + (z ^ n - w ^ n) * w‖ := by ring_nf
      _ ≤ ‖z‖ ^ n * ‖z - w‖ + ‖z ^ n - w ^ n‖ * ‖w‖ := by
        simpa only [norm_mul, norm_pow] using norm_add_le (z ^ n * (z - w)) ((z ^ n - w ^ n) * w)
      _ ≤ 1 * ‖z - w‖ + n * ‖z - w‖ * 1 := by gcongr; exact pow_le_one₀ (norm_nonneg z) hz
      _ = (n + 1 : ℕ) * ‖z - w‖ := by push_cast; ring

theorem exp_I_pow_im (n : ℕ) : (exp I ^ n).im = Real.sin n := by
  rw [← Complex.exp_nat_mul, ← Complex.ofReal_natCast, Complex.exp_ofReal_mul_I_im]

theorem unitTurn_div_pow_im (n d : ℕ) : (((unitTurn : ℂ) / d) ^ n).im = (unitTurn ^ n).im / (d : ℝ) ^ n := by
  rw [div_pow, ← map_pow, ← Complex.ofReal_natCast, ← Complex.ofReal_pow, Complex.div_ofReal_im,
    GaussianInt.intCast_im]

theorem abs_sin_sub_unitTurn_pow_le (n : ℕ) :
    |Real.sin n - (unitTurn ^ n).im / (factorial 19 : ℝ) ^ n| ≤ n / 10 ^ 18 := by
  have hone : ‖exp I‖ ≤ 1 := by simpa using (Complex.norm_exp_ofReal_mul_I 1).le
  rw [← exp_I_pow_im, ← unitTurn_div_pow_im, ← Complex.sub_im]
  calc _ ≤ ‖exp I ^ n - ((unitTurn : ℂ) / factorial 19) ^ n‖ := Complex.abs_im_le_norm _
    _ ≤ n * ‖exp I - unitTurn / factorial 19‖ := norm_pow_sub_pow_le hone norm_unitTurn_le_one n
    _ ≤ n * (1 / 10 ^ 18) := by gcongr; exact norm_exp_I_sub_unitTurn_le
    _ = n / 10 ^ 18 := mul_one_div ..

/-- The approximation of `|sin n| * 2^32`, for the arguments of the ROM. -/
theorem abs_sin_mul_sub_unitTurn_lt {n : ℕ} (hn : n ≤ 64) :
    |(|Real.sin n| * 2 ^ 32) - ((unitTurn ^ n).im.natAbs * 2 ^ 32 : ℕ) / (factorial 19 ^ n : ℕ)| < 1 / 100 := by
  have hn' : (n : ℝ) ≤ 64 := mod_cast hn
  have hsin := (abs_abs_sub_abs_le ..).trans (abs_sin_sub_unitTurn_pow_le n)
  rw [abs_div, abs_of_pos (by positivity : (0 : ℝ) < factorial 19 ^ n)] at hsin
  push_cast [Nat.cast_natAbs]
  calc _ = |(|Real.sin n| - |((unitTurn ^ n).im : ℝ)| / factorial 19 ^ n) * 2 ^ 32| := by ring_nf
    _ = |(|Real.sin n| - |((unitTurn ^ n).im : ℝ)| / factorial 19 ^ n)| * 2 ^ 32 := by
      rw [abs_mul, abs_of_pos (by norm_num : (0 : ℝ) < 2 ^ 32)]
    _ < 1 / 100 := by linarith

/-! ### The table -/

/-- The approximation of `|sin(i+1)| * 2^32` lies above `K(i)` and below `K(i) + 1`, by a hundredth at least. -/
theorem romK_isolated (i : Fin 64) :
    (100 * (romK i).toNat + 1) * factorial 19 ^ (i.val + 1) ≤ 100 * ((unitTurn ^ (i.val + 1)).im.natAbs * 2 ^ 32) ∧
    100 * ((unitTurn ^ (i.val + 1)).im.natAbs * 2 ^ 32) ≤ (100 * (romK i).toNat + 99) * factorial 19 ^ (i.val + 1) := by
  decide +revert

/-- A real number within a hundredth of a fraction that keeps a hundredth away from the integers has its floor. -/
theorem floor_eq_of_near {x : ℝ} {k a d : ℕ} (hd : 0 < d) (hx : |x - a / d| < 1 / 100)
    (hlo : (100 * k + 1) * d ≤ 100 * a) (hhi : 100 * a ≤ (100 * k + 99) * d) : ⌊x⌋ = k := by
  have hd' : (0 : ℝ) < d := mod_cast hd
  have hlo' : (100 * k + 1) / 100 ≤ (a / d : ℝ) := by
    rw [div_le_div_iff₀ (by norm_num) hd', mul_comm (a : ℝ)]
    exact_mod_cast hlo
  have hhi' : (a / d : ℝ) ≤ (100 * k + 99) / 100 := by
    rw [div_le_div_iff₀ hd' (by norm_num), mul_comm (a : ℝ)]
    exact_mod_cast hhi
  obtain ⟨h₁, h₂⟩ := abs_lt.mp hx
  rw [Int.floor_eq_iff, Int.cast_natCast]
  constructor <;> linarith

/-- Settles O22: the sine is near the approximation, which keeps away from the integers around each constant. -/
theorem roundConstantsAreTheSineFormula : Obligations.RoundConstantsAreTheSineFormula := by
  intro i
  obtain ⟨hlo, hhi⟩ := romK_isolated i
  have hnear := abs_sin_mul_sub_unitTurn_lt (n := i.val + 1) (by omega)
  simpa using (floor_eq_of_near (by positivity) hnear hlo hhi).symm

end Sys2Proof.Machine
end

section
/-! PROOFS. The padding function in closed form, its length and its length field (41_padding.md R121 to R128). -/

namespace Sys2Proof.Machine

/-! ### The zero fill (R121, R122) -/

/-- The loop of R121 appends the fewest zero bytes that bring the length to 56 modulo 64. -/
theorem zeroFill_eq_append_replicate {fuel z : Nat} {p : List Byte} (hfuel : z ≤ fuel) (hz : z < 64)
    (h : (p.length + z) % 64 = 56) : zeroFill fuel p = p ++ List.replicate z 0x00 := by
  induction z generalizing fuel p with
  | zero =>
    have hstop : p.length % 64 = 56 := h
    cases fuel <;> simp [zeroFill, hstop]
  | succ z ih =>
    obtain ⟨fuel, rfl⟩ : ∃ k, fuel = k + 1 := ⟨fuel - 1, by omega⟩
    have hmore : p.length % 64 ≠ 56 := by omega
    rw [zeroFill, if_neg hmore, ih (by omega) (by omega) (by rw [List.length_append, List.length_singleton]; omega),
      List.append_assoc, List.replicate_succ, List.singleton_append]

theorem zeroCount_lt (l : Nat) : zeroCount l < 64 := Nat.mod_lt _ (by decide)

theorem marker_zeros_mod (l : Nat) : (l + 1 + zeroCount l) % 64 = 56 := by
  simp only [zeroCount]; omega

/-! ### The length field (R62, R123) -/

@[simp] theorem le64bytes_length (v : BitVec 64) : (le64bytes v).length = 8 := rfl

@[simp] theorem bitLength_toNat (l : Nat) : (bitLength l).toNat = 8 * l % 2 ^ 64 := BitVec.toNat_ofNat ..

theorem lenByte_eq_ofNat (v : BitVec 64) (k : Nat) : lenByte v k = BitVec.ofNat 8 (v.toNat / 2 ^ (8 * k)) := by
  rw [← Nat.shiftRight_eq_div_pow]; rfl

theorem le64bytes_eq_map (v : BitVec 64) :
    le64bytes v = (List.range 8).map fun k => BitVec.ofNat 8 (v.toNat / 2 ^ (8 * k)) :=
  calc le64bytes v = (List.range 8).map (lenByte v) := rfl
    _ = _ := List.map_congr_left fun k _ => lenByte_eq_ofNat v k

/-- The number that a sequence of bytes gives when read little-endian, as R128 reads the length field. -/
theorem foldr_bytes_eq_mod (n v : Nat) :
    ((List.range n).map fun k => BitVec.ofNat 8 (v / 2 ^ (8 * k))).foldr (fun b acc => b.toNat + 2 ^ 8 * acc) 0 =
      v % 2 ^ (8 * n) := by
  induction n generalizing v with
  | zero => simp [Nat.mod_one]
  | succ n ih =>
    have hshift (k : Nat) : v / 2 ^ (8 * (k + 1)) = v / 2 ^ 8 / 2 ^ (8 * k) := by
      rw [Nat.div_div_eq_div_mul, ← pow_add, Nat.mul_succ, Nat.add_comm]
    have hmod : v % 2 ^ (8 * (n + 1)) = v % 2 ^ 8 + 2 ^ 8 * (v / 2 ^ 8 % 2 ^ (8 * n)) := by
      rw [Nat.mul_succ, Nat.add_comm, pow_add, Nat.mod_mul]
    rw [hmod, ← ih (v / 2 ^ 8)]
    simp [List.range_succ_eq_map, Function.comp_def, hshift]

theorem foldr_le64bytes (v : BitVec 64) : (le64bytes v).foldr (fun b acc => b.toNat + 2 ^ 8 * acc) 0 = v.toNat := by
  rw [le64bytes_eq_map, foldr_bytes_eq_mod 8, Nat.mod_eq_of_lt v.isLt]

/-! ### The padded message -/

theorem pad_eq (m : List Byte) :
    pad m = m ++ [0x80] ++ List.replicate (zeroCount m.length) 0x00 ++ le64bytes (bitLength m.length) := by
  have hz := zeroCount_lt m.length
  rw [pad, zeroFill_eq_append_replicate (Nat.le_of_lt_succ hz) hz (by simpa using marker_zeros_mod m.length)]

theorem pad_length (m : List Byte) : (pad m).length = m.length + 1 + zeroCount m.length + 8 := by
  simp only [pad_eq, List.length_append, List.length_singleton, List.length_replicate, le64bytes_length]

theorem pad_length_eq_blocks (m : List Byte) : (pad m).length = 64 * blockCount m.length := by
  rw [pad_length, zeroCount, blockCount]; omega

/-- R123: the last eight bytes are the length field. -/
theorem pad_drop_length_sub_eight (m : List Byte) :
    (pad m).drop ((pad m).length - 8) = le64bytes (bitLength m.length) := by
  rw [pad_eq, List.length_append, le64bytes_length, Nat.add_sub_cancel, List.drop_left]

@[simp] theorem blocks_length (p : List Byte) : (blocks p).length = p.length / 64 := by simp [blocks]

/-- Settles O25: the zero fill takes `zeroCount` turns, and the length field is written out byte by byte. -/
theorem padIsMarkerZerosLength : Obligations.PadIsMarkerZerosLength := fun m =>
  ⟨zeroCount m.length, zeroCount_lt _, marker_zeros_mod _, by rw [pad_eq, le64bytes_eq_map, bitLength_toNat]⟩

/-- Settles O26: all counts are linear arithmetic over `pad_length` and `pad_length_eq_blocks`. -/
theorem padLengthAndBlockCount : Obligations.PadLengthAndBlockCount := by
  intro m
  have hz := zeroCount_lt m.length
  have hlen := pad_length m
  have hwhole := pad_length_eq_blocks m
  refine ⟨by rw [zeroCount]; omega, hlen, hwhole, by omega, by omega, ?_, ?_, ?_⟩
  · rw [blocks_length]; omega
  · rw [blockCount]; omega
  · rw [blockCount]; omega

/-- Settles O27: the length field holds 8L modulo 2^64, which is 8L itself exactly below 2^64. -/
theorem padLengthIsRecoverable : Obligations.PadLengthIsRecoverable := by
  intro m
  rw [pad_drop_length_sub_eight, foldr_le64bytes, bitLength_toNat]
  exact ⟨rfl, Nat.mod_eq_iff_lt (by decide)⟩

end Sys2Proof.Machine
end

section
/-! PROOFS. The block compressor at the operation level: rotation, mixing functions, the bands of rounds and one round
(42_compressor.md R140 to R148). -/

namespace Sys2Proof.Machine

/-! ### Rotation (R140) -/

/-- The first term of the formula is a multiple of `2 ^ n`. -/
theorem shifted_part_eq (x : Word) {n : Nat} (h : n ≤ 32) :
    x.toNat * 2 ^ n % 2 ^ 32 = 2 ^ n * (x.toNat % 2 ^ (32 - n)) :=
  calc x.toNat * 2 ^ n % 2 ^ 32
      = 2 ^ n * x.toNat % (2 ^ n * 2 ^ (32 - n)) := by rw [Nat.mul_comm, ← pow_add, Nat.add_sub_cancel' h]
    _ = 2 ^ n * (x.toNat % 2 ^ (32 - n)) := Nat.mul_mod_mul_left ..

/-- The second term of the formula stays below the first one's lowest bit. -/
theorem wrapped_part_lt (x : Word) {n : Nat} (h : n ≤ 32) : x.toNat / 2 ^ (32 - n) < 2 ^ n := by
  rw [Nat.div_lt_iff_lt_mul (by positivity), ← pow_add, Nat.add_sub_cancel' h]
  exact x.isLt

/-- The sum of the formula is a word, so nothing of it is discarded. -/
theorem rotl_toNat (x : Word) {n : Nat} (h : n ≤ 32) :
    (rotl x n).toNat = x.toNat * 2 ^ n % 2 ^ 32 + x.toNat / 2 ^ (32 - n) := by
  rw [rotl, BitVec.toNat_ofNat, Nat.mod_eq_of_lt]
  calc x.toNat * 2 ^ n % 2 ^ 32 + x.toNat / 2 ^ (32 - n)
      < 2 ^ n * (x.toNat % 2 ^ (32 - n)) + 2 ^ n := by
        rw [shifted_part_eq x h]; exact Nat.add_lt_add_left (wrapped_part_lt x h) _
    _ = 2 ^ n * (x.toNat % 2 ^ (32 - n) + 1) := (Nat.mul_succ ..).symm
    _ ≤ 2 ^ n * 2 ^ (32 - n) := Nat.mul_le_mul_left _ (Nat.mod_lt _ (by positivity))
    _ = 2 ^ 32 := by rw [← pow_add, Nat.add_sub_cancel' h]

theorem rotl_getLsbD (x : Word) {n j : Nat} (h : n ≤ 32) (hj : j < 32) :
    (rotl x n).getLsbD j = x.getLsbD ((j + 32 - n) % 32) := by
  rw [BitVec.getLsbD, rotl_toNat x h, shifted_part_eq x h, Nat.testBit_two_pow_mul_add _ (wrapped_part_lt x h)]
  split
  case isTrue hlt => -- the bits that wrap around
    rw [Nat.testBit_div_two_pow, BitVec.getLsbD]
    congr 1; omega
  case isFalse hge => -- the bits that move up
    have hlow : j - n < 32 - n := by omega
    rw [Nat.testBit_mod_two_pow, decide_eq_true hlow, Bool.true_and, BitVec.getLsbD]
    congr 1; omega

/-- Settles O17: the two terms of the formula occupy disjoint bits; the amounts are those of the rotation schedule. -/
theorem rotlMovesEachBit : Obligations.RotlMovesEachBit := by
  refine ⟨fun x n _ hn => ?_, fun i => ?_, by decide, by decide, by decide⟩
  · have h : n ≤ 32 := by omega
    exact ⟨fun j hj => rotl_getLsbD x h hj, rotl_toNat x h⟩
  · obtain ⟨-, -, -, -, hlo, hhi⟩ := rotationSchedule i
    omega

/-! ### The mixing functions (R142 to R145) -/

theorem mixF_getLsbD (b c d : Word) {j : Nat} (hj : j < 32) :
    (mixF b c d).getLsbD j = if b.getLsbD j = true then c.getLsbD j else d.getLsbD j := by
  simp only [mixF, BitVec.getLsbD_or, BitVec.getLsbD_and, BitVec.getLsbD_not, hj, decide_true, Bool.true_and]
  cases b.getLsbD j <;> simp

theorem mixG_getLsbD (b c d : Word) {j : Nat} (hj : j < 32) :
    (mixG b c d).getLsbD j = if d.getLsbD j = true then b.getLsbD j else c.getLsbD j := by
  simp only [mixG, BitVec.getLsbD_or, BitVec.getLsbD_and, BitVec.getLsbD_not, hj, decide_true, Bool.true_and]
  cases d.getLsbD j <;> simp

theorem mixH_getLsbD (b c d : Word) (j : Nat) :
    (mixH b c d).getLsbD j = xor (xor (b.getLsbD j) (c.getLsbD j)) (d.getLsbD j) := by
  simp [mixH]

theorem mixI_getLsbD (b c d : Word) {j : Nat} (hj : j < 32) :
    (mixI b c d).getLsbD j = xor (c.getLsbD j) (b.getLsbD j || !d.getLsbD j) := by
  simp [mixI, hj]

/-- Settles O18: each word operator acts on each bit alone. -/
theorem mixingFunctionsBitwise : Obligations.MixingFunctionsBitwise :=
  ⟨fun b c d _ hj => ⟨mixF_getLsbD b c d hj, mixG_getLsbD b c d hj, mixH_getLsbD b c d _, mixI_getLsbD b c d hj⟩,
    by decide, by decide, by decide, by decide, by decide⟩

/-! ### The bands of rounds (R146, R147) -/

/-- A choice by the limits of the bands is a choice by the number of the band. -/
theorem ite_band_limits_eq {α : Type} (x : Fin 4 → α) {i : Fin 64} {q : Fin 4} (h : i.val / 16 = q.val) :
    (if i.val < 16 then x 0 else if i.val < 32 then x 1 else if i.val < 48 then x 2 else x 3) = x q := by
  split_ifs <;> (congr 1; omega)

theorem mixFn_of_band {i : Fin 64} (q : Fin 4) (h : i.val / 16 = q.val) (b c d : Word) :
    mixFn i b c d = ![mixF b c d, mixG b c d, mixH b c d, mixI b c d] q :=
  ite_band_limits_eq ![mixF b c d, mixG b c d, mixH b c d, mixI b c d] h

theorem msgIndex_of_band {i : Fin 64} (q : Fin 4) (h : i.val / 16 = q.val) :
    (msgIndex i).val = ![i.val, 5 * i.val + 1, 3 * i.val + 5, 7 * i.val] q % 16 := by
  rw [← ite_band_limits_eq ![i.val, 5 * i.val + 1, 3 * i.val + 5, 7 * i.val] h, msgIndex]
  split_ifs <;> rfl

/-- Settles O19: both definitions choose by the limits of the bands. -/
theorem bandDispatch : Obligations.BandDispatch := fun i b c d =>
  ⟨fun h => ⟨mixFn_of_band 0 h b c d, (msgIndex_of_band 0 h).trans (Nat.mod_eq_of_lt (by simpa using h))⟩,
    fun h => ⟨mixFn_of_band 1 h b c d, msgIndex_of_band 1 h⟩,
    fun h => ⟨mixFn_of_band 2 h b c d, msgIndex_of_band 2 h⟩,
    fun h => ⟨mixFn_of_band 3 h b c d, msgIndex_of_band 3 h⟩⟩

/-- The round of band `q` that uses word `j`. The word index of a band is `a * i + b` modulo 16 with `a` odd, so it is
solved by the inverse of `a` modulo 16: 1, 13, 11, 7 for 1, 5, 3, 7. -/
def roundUsing (q : Fin 4) (j : Fin 16) : Fin 64 :=
  Fin.ofNat 64 (16 * q.val + ![j.val, 13 * (j.val + 15), 11 * (j.val + 11), 7 * j.val] q % 16)

theorem roundUsing_band (q : Fin 4) (j : Fin 16) : (roundUsing q j).val / 16 = q.val := by
  decide +revert

theorem msgIndex_roundUsing (q : Fin 4) (j : Fin 16) : msgIndex (roundUsing q j) = j := by
  decide +revert

theorem roundUsing_msgIndex {i : Fin 64} {q : Fin 4} (h : i.val / 16 = q.val) : roundUsing q (msgIndex i) = i := by
  decide +revert

/-- Settles O20: in each band `roundUsing` is the inverse of `msgIndex`. -/
theorem eachBandUsesEachWordOnce : Obligations.EachBandUsesEachWordOnce := by
  refine fun q j => ⟨roundUsing q j, roundUsing_band q j, msgIndex_roundUsing q j, ?_⟩
  rintro i hq rfl
  exact (roundUsing_msgIndex hq).symm

/-! ### One round (R148) -/

/-- `T` of the first round of a block that begins with "abc" and the marker, from the initial state. -/
theorem roundSum_zero_iv {m : Words} (h : m[0] = 0x80636261) : roundSum 0 iv m = 0x57ce06d8 := by
  have hword : m[(msgIndex 0).val] = 0x80636261 := h
  rw [roundSum, hword]
  decide

theorem md5Round_zero_iv {m : Words} (h : m[0] = 0x80636261) :
    md5Round 0 iv m = ⟨0x10325476, 0xd6d117b4, 0xefcdab89, 0x98badcfe⟩ := by
  rw [md5Round, roundSum_zero_iv h]
  decide

/-- Settles O23: the round is its definition, and the example enters the first word of the block alone. -/
theorem roundFunction : Obligations.RoundFunction :=
  ⟨fun _ _ _ _ _ _ => rfl, by decide, by decide, fun _ h => ⟨roundSum_zero_iv h, md5Round_zero_iv h⟩⟩

end Sys2Proof.Machine
end

section
/-! PROOFS. The compression as the core runs it: 64 ROUND steps and the add-back (42_compressor.md R150). -/

namespace Sys2Proof.Machine

theorem md5Rounds_succ (m : Words) (q : Quad) (n : Nat) :
    md5Rounds m q (n + 1) = md5Round (Fin.ofNat 64 n) (md5Rounds m q n) m := rfl

/-- The core in phase ROUND with the first `k` rounds done from round 0 on. -/
def CoreState.afterRounds (c : CoreState) (k : Nat) : CoreState :=
  { c with w := md5Rounds (blockWords c.buf) c.w k, rnd := Fin.ofNat 64 k }

theorem CoreState.afterRounds_zero {c : CoreState} (hr : c.rnd = 0) : c.afterRounds 0 = c := by
  cases c; cases hr; rfl

/-- A ROUND step before the last one does the next round and counts it (R199). -/
theorem coreStep_afterRounds {c : CoreState} (hp : c.phase = .round) {k : Nat} (hk : k < 63) :
    coreStep (c.afterRounds k) = .next (c.afterRounds (k + 1)) := by
  have hmore : (c.afterRounds k).rnd ≠ 63 := by
    simp only [CoreState.afterRounds, ne_eq, Fin.ext_iff, Fin.val_ofNat]; omega
  have hnext : Fin.ofNat 64 k + 1 = Fin.ofNat 64 (k + 1) := by
    simp only [Fin.ext_iff, Fin.val_add, Fin.val_ofNat]; omega
  rw [coreStep_round (c := c.afterRounds k) hp hmore]
  simp only [CoreState.afterRounds, md5Rounds_succ, hnext]

theorem coreRun_rounds {c : CoreState} (hp : c.phase = .round) (hr : c.rnd = 0) {k : Nat} (hk : k ≤ 63) :
    coreRun k c = .next (c.afterRounds k) := by
  induction k with
  | zero => rw [coreRun_zero, CoreState.afterRounds_zero hr]
  | succ k ih => rw [coreRun_add (ih (by omega)), coreRun_succ (coreStep_afterRounds hp hk), coreRun_zero]

/-- The last ROUND step does the 64th round and leaves its outcome for the add-back (R199). -/
theorem coreStep_afterRounds_last {c : CoreState} (hp : c.phase = .round) {k : Nat} (hk : Fin.ofNat 64 k = 63) :
    coreStep (c.afterRounds k) =
      .next { c with w := md5Rounds (blockWords c.buf) c.w (k + 1), rnd := Fin.ofNat 64 k, phase := .addback } :=
  coreStep_last_round (c := c.afterRounds k) hp hk

theorem coreRun_all_rounds {c : CoreState} (hp : c.phase = .round) (hr : c.rnd = 0) :
    coreRun 64 c = .next { c with w := md5Rounds (blockWords c.buf) c.w 64, rnd := 63, phase := .addback } := by
  rw [coreRun_add (coreRun_rounds hp hr le_rfl) 1, coreRun_succ (coreStep_afterRounds_last hp rfl), coreRun_zero]
  rfl

theorem coreRun_compression {c : CoreState} (hp : c.phase = .round) (hr : c.rnd = 0) (hw : c.w = c.h) :
    coreRun 65 c =
      .next { c with
        h := compress c.h c.buf, w := md5Rounds (blockWords c.buf) c.h 64, rnd := 63, fill := 0,
        phase := c.ret.phase } := by
  rw [coreRun_add (coreRun_all_rounds hp hr) 1, coreRun_succ (coreStep_addback rfl), hw]
  rfl

/-- Settles O30: H, BUF and the rest of the frame stay through the rounds, and the add-back completes `Compress`. -/
theorem roundsThenAddbackCompress : Obligations.RoundsThenAddbackCompress :=
  fun _ hp hr hw => ⟨_, coreRun_compression hp hr hw, rfl⟩

end Sys2Proof.Machine
end

section
/-! PROOFS. The digest driver at the operation level: the partition into blocks and the bytes of the digest
(43_driver.md R171, R173). -/

namespace Sys2Proof.Machine

/-! ### The blocks of a sequence (R171) -/

theorem blockAt_toList {p : List Byte} {t : Nat} (h : 64 * t + 64 ≤ p.length) :
    (blockAt p t).toList = (p.drop (64 * t)).take 64 := by
  have hlen : ((p.drop (64 * t)).take 64).length = 64 := by
    rw [List.length_take, List.length_drop]; omega
  refine List.ext_getElem (by rw [Vector.length_toList, hlen]) fun j hj _ => ?_
  rw [Vector.length_toList] at hj
  rw [Vector.getElem_toList, blockAt_getElem p t j hj, List.getElem_take, List.getElem_drop,
    List.getD_eq_getElem _ _ (by omega)]

/-- The first `k` blocks, one after the other, are the first `64k` bytes. -/
theorem flatten_map_blockAt_range {p : List Byte} {k : Nat} (h : 64 * k ≤ p.length) :
    (((List.range k).map (blockAt p)).map Vector.toList).flatten = p.take (64 * k) := by
  induction k with
  | zero => rfl
  | succ k ih =>
    rw [List.range_succ, List.map_append, List.map_append, List.flatten_append, ih (by omega), Nat.mul_succ,
      List.take_add, List.map_singleton, List.map_singleton, List.flatten_singleton, blockAt_toList h]

/-- Settles O28: the blocks give the first `64 * (|p| / 64)` bytes of `p`, which are all of them. -/
theorem blocksPartitionInOrder : Obligations.BlocksPartitionInOrder := fun p hp =>
  have hall : 64 * (p.length / 64) = p.length := Nat.mul_div_cancel' (Nat.dvd_of_mod_eq_zero hp)
  ⟨blocks_length p, by rw [blocks, flatten_map_blockAt_range hall.le, hall, List.take_length]⟩

/-! ### The bytes of the digest (R63, R173) -/

@[simp] theorem bytes32_length (x : Word) : (bytes32 x).length = 4 := rfl

theorem bytes32_getElem? (x : Word) {j : Nat} (hj : j < 4) : (bytes32 x)[j]? = some (wordByte x j) := by
  rw [bytes32_eq_map, List.getElem?_map, List.getElem?_range hj, Option.map_some]

/-- Words written out one after the other: byte `4n + j` is byte `j` of word `n`. -/
theorem flatMap_bytes32_getElem? (ws : List Word) (n : Nat) {j : Nat} (hj : j < 4) :
    (ws.flatMap bytes32)[4 * n + j]? = ws[n]?.map (wordByte · j) := by
  induction ws generalizing n with
  | nil => rfl
  | cons x ws ih =>
    rw [List.flatMap_cons]
    cases n with
    | zero => rw [Nat.mul_zero, Nat.zero_add, List.getElem?_append_left hj, bytes32_getElem? x hj]; rfl
    | succ n =>
      rw [List.getElem?_append_right (by rw [bytes32_length]; omega), List.getElem?_cons_succ, ← ih n, bytes32_length,
        show 4 * (n + 1) + j - 4 = 4 * n + j by omega]

theorem serialize_eq_flatMap (q : Quad) : serialize q = [q.a, q.b, q.c, q.d].flatMap bytes32 := rfl

theorem serialize_length (q : Quad) : (serialize q).length = 16 := rfl

theorem serialize_getElem? (q : Quad) {n j : Nat} (hn : n < 4) (hj : j < 4) :
    (serialize q)[4 * n + j]? = some (BitVec.ofNat 8 (([q.a, q.b, q.c, q.d].getD n 0).toNat / 2 ^ (8 * j))) := by
  have hword : n < [q.a, q.b, q.c, q.d].length := hn
  rw [serialize_eq_flatMap, flatMap_bytes32_getElem? _ n hj, List.getElem?_eq_getElem hword, Option.map_some,
    List.getD_eq_getElem _ _ hword, wordByte_eq_ofNat]

/-- DIGEST0..3 read with BUSY = 0 are the words of H in order (R40). -/
theorem regRead_digest {s : State} (h : s.core.phase = .idle) {n : Nat} (hn : n < 4) :
    regRead ([Reg.digest0, .digest1, .digest2, .digest3].getD n .digest0) s =
      [s.core.h.a, s.core.h.b, s.core.h.c, s.core.h.d].getD n 0 := by
  match n with
  | 0 | 1 | 2 | 3 => exact settledWord_of_idle h _ _

/-- Settles O29: the digest is the words written out one after the other, and the example of R63 evaluates. -/
theorem digestBytesAreLittleEndian : Obligations.DigestBytesAreLittleEndian :=
  ⟨fun q _ _ => serialize_getElem? q, serialize_length,
    fun s _ _ hp hn hj => by rw [regRead_digest hp hn, serialize_getElem? s.core.h hn hj], by decide⟩

end Sys2Proof.Machine
end

section
/-! PROOFS. The padding of a message as the blocks that the finalization compresses (41_padding.md R121, R127;
44_commands.md R201, R202). -/

namespace Sys2Proof.Machine

/-! ### Whole blocks and the rest of a sequence (R171) -/

/-- A last part of less than a block adds no block. -/
theorem blocks_eq_blocks_take {p : List Byte} {f : Nat} (hf : f < 64) (h : (p.length - f) % 64 = 0) :
    blocks (p.take (p.length - f)) = blocks p := by
  have hlen : (p.take (p.length - f)).length % 64 = 0 := by rwa [List.length_take, Nat.min_eq_left (Nat.sub_le ..)]
  have hrest : blocks (p.drop (p.length - f)) = [] := by
    rw [← List.length_eq_zero_iff, blocks_length, List.length_drop]; omega
  conv_rhs => rw [← List.take_append_drop (p.length - f) p]
  rw [blocks_append hlen, hrest, List.append_nil]

/-- What follows a sequence leaves its whole blocks as they are. -/
theorem blocks_append_eq (p q : List Byte) :
    blocks (p ++ q) = blocks p ++ (List.range ((p ++ q).length / 64 - p.length / 64)).map fun t =>
      blockAt (p ++ q) (p.length / 64 + t) := by
  obtain ⟨n, hn⟩ : ∃ n, (p ++ q).length / 64 = p.length / 64 + n :=
    Nat.exists_eq_add_of_le (Nat.div_le_div_right (by simp))
  rw [blocks, hn, List.range_add, List.map_append, List.map_map, Nat.add_sub_cancel_left]
  refine congrArg (· ++ _) (List.map_congr_left fun t ht => blockAt_append_left ?_)
  rw [List.mem_range] at ht; omega

/-! ### The blocks of the padding -/

theorem le64bytes_getD (v : BitVec 64) {k : Nat} (hk : k < 8) : (le64bytes v).getD k 0 = lenByte v k := by
  interval_cases k <;> rfl

/-- The padded message byte by byte: the message, the marker, zeros, and the length in the last eight places (R121). -/
theorem pad_getD (m : List Byte) {k : Nat} (hk : k < (pad m).length) :
    (pad m).getD k 0 =
      if k < m.length then m.getD k 0 else if k = m.length then 0x80
      else if k + 8 < (pad m).length then 0x00 else lenByte (bitLength m.length) (k + 8 - (pad m).length) := by
  rw [pad_length] at hk ⊢
  rw [pad_eq]
  split
  case isTrue h =>
    rw [List.append_assoc, List.append_assoc, List.getD_append _ _ _ _ h]
  split
  case isTrue h => subst h; simp
  split
  case isTrue h0 h1 h =>
    rw [List.getD_append _ _ _ _ (by simp; omega), List.getD_append_right _ _ _ _ (by simp; omega),
      List.getD_replicate _ (by simp; omega)]
  case isFalse h0 h1 h =>
    rw [List.getD_append_right _ _ _ _ (by simp; omega), ← le64bytes_getD _ (by omega)]
    congr 1
    simp; omega

/-- `Pad(m)` is the whole blocks of `m` and the block of its rest, or two with FILL from 56 on (R125, R126). -/
theorem blocks_pad (m : List Byte) :
    blocks (pad m) = blocks m ++
      if m.length % 64 ≤ 55 then [blockAt (pad m) (m.length / 64)]
      else [blockAt (pad m) (m.length / 64), blockAt (pad m) (m.length / 64 + 1)] := by
  obtain ⟨q, hq⟩ : ∃ q, pad m = m ++ q := ⟨_, by rw [pad_eq, List.append_assoc, List.append_assoc]⟩
  have hcount : (pad m).length / 64 - m.length / 64 = if m.length % 64 ≤ 55 then 1 else 2 := by
    rw [pad_length_eq_blocks, blockCount]; split <;> omega
  rw [hq, blocks_append_eq, ← hq, hcount]
  split <;> rfl

/-- The block that FIN1 leaves is the block of `Pad(m)` with the rest of `m`: with FILL ≤ 55 the last one (R201). -/
theorem fin1Block_eq_blockAt_pad {m : List Byte} {buf : Block} {fill : Nat} (hf : fill < 64) (hm : fill = m.length % 64)
    (hbuf : ∀ j : Fin 64, j.val < fill → some buf[j] = m[64 * (m.length / 64) + j.val]?) :
    fin1Block buf fill hf (bitLength m.length) = blockAt (pad m) (m.length / 64) := by
  have hlen : (pad m).length = 64 * (m.length / 64) + if fill ≤ 55 then 64 else 128 := by
    rw [pad_length_eq_blocks, blockCount]; split <;> omega
  ext1 j hj
  rw [fin1Block_getElem _ _ _ _ _ hj, blockAt_getElem _ _ _ hj, pad_getD _ (by rw [hlen]; split <;> omega), hlen]
  by_cases hlt : j < fill
  · rw [if_pos hlt, if_pos (by omega), List.getD_eq_getElem?_getD, ← hbuf ⟨j, hj⟩ hlt]; rfl
  by_cases heq : j = fill
  · rw [if_neg hlt, if_pos heq, if_neg (by omega), if_pos (by omega)]
  rw [if_neg hlt, if_neg heq]
  by_cases hlast : fill ≤ 55 ∧ 56 ≤ j
  · rw [if_pos hlast, if_neg (by omega), if_neg (by omega), if_pos hlast.1, if_neg (by omega)]
    exact congrArg (lenByte _) (by omega)
  · rw [if_neg hlast, if_neg (by omega), if_neg (by omega), if_pos (by split <;> omega)]

/-- The block that FIN2 forms is the second block of the padding when there is one (R202). -/
theorem lengthBlock_eq_blockAt_pad {m : List Byte} (buf : Block) (hm : 55 < m.length % 64) :
    lengthBlock buf (bitLength m.length) = blockAt (pad m) (m.length / 64 + 1) := by
  have hlen : (pad m).length = 64 * (m.length / 64) + 128 := by
    rw [pad_length_eq_blocks, blockCount]; omega
  ext1 j hj
  rw [lengthBlock_getElem _ _ _ hj, blockAt_getElem _ _ _ hj, pad_getD _ (by omega), hlen]
  by_cases h : j < 56
  · rw [if_pos h, if_neg (by omega), if_neg (by omega), if_pos (by omega)]
  · rw [if_neg h, if_neg (by omega), if_neg (by omega), if_neg (by omega)]
    exact congrArg (lenByte _) (by omega)

end Sys2Proof.Machine
end

section
/-! PROOFS. What H and BUF hold of the absorbed message, through the placing of a byte, the add-back and FIN1
(44_commands.md R198 to R202, R210, R211). -/

namespace Sys2Proof.Machine

/-- The bytes that have left PEND are those before it in the message. -/
theorem placed_of_append {c : CoreState} {p m : List Byte} (h : p ++ c.pend = m) : c.placed m = p := by
  rw [CoreState.placed, ← h, List.length_append, Nat.add_sub_cancel, List.take_left]

theorem bitLength_succ (l : Nat) : bitLength (l + 1) = bitLength l + 8 := by
  rw [bitLength, Nat.mul_succ, BitVec.ofNat_add]; rfl

/-- With FILL below 64, H is the chaining value of the whole blocks and BUF the rest (R211). -/
theorem CoreState.Holds.of_fill_lt {c : CoreState} {p : List Byte} (h : c.Holds p) (hf : c.fill.val < 64) :
    c.h = chain iv (blocks p) ∧ c.fill.val = p.length % 64 ∧
      ∀ j : Fin 64, j.val < c.fill.val → some c.buf[j] = p[64 * (p.length / 64) + j.val]? := by
  obtain ⟨hle, hmod, hh, hbuf⟩ := h
  refine ⟨by rw [hh, blocks_eq_blocks_take hf hmod], by omega, fun j hj => ?_⟩
  rw [hbuf j hj, show p.length - c.fill.val = 64 * (p.length / 64) by omega]

/-- With FILL = 64, BUF is the last whole block, which is not yet in H (R24). -/
theorem CoreState.Holds.compress_of_full {c : CoreState} {p : List Byte} (h : c.Holds p) (hf : c.fill.val = 64) :
    p.length % 64 = 0 ∧ compress c.h c.buf = chain iv (blocks p) := by
  obtain ⟨hle, hmod, hh, hbuf⟩ := h
  rw [hf] at hle hmod hh hbuf
  have hlast : c.buf = blockAt p (p.length / 64 - 1) := by
    ext1 j hj
    rw [blockAt_getElem _ _ _ hj, List.getD_eq_getElem?_getD,
      show 64 * (p.length / 64 - 1) + j = p.length - 64 + j by omega, ← hbuf ⟨j, hj⟩ hj]; rfl
  have hblocks : blocks p = blocks (p.take (p.length - 64)) ++ [c.buf] := by
    conv_lhs => rw [← List.take_append_drop (p.length - 64) p]
    rw [blocks_append_eq, List.take_append_drop, List.length_take, Nat.min_eq_left (Nat.sub_le ..),
      show p.length / 64 - (p.length - 64) / 64 = 1 by omega, hlast,
      show p.length / 64 - 1 = (p.length - 64) / 64 by omega]; rfl
  exact ⟨by omega, by rw [hblocks, chain_append, ← hh]; rfl⟩

/-- After the add-back of a full block FILL is 0 and H holds all the placed bytes (R200, R211). -/
theorem CoreState.Holds.addback {c : CoreState} {p : List Byte} (h : c.Holds p) (hf : c.fill.val = 64)
    (hw : c.w = md5Rounds (blockWords c.buf) c.h 64) : (stepAddback c).Holds p := by
  obtain ⟨hmod, hcompress⟩ := h.compress_of_full hf
  refine ⟨Nat.zero_le _, hmod, ?_, nofun⟩
  rw [stepAddback_h, hw, stepAddback_fill, Fin.val_zero, Nat.sub_zero, List.take_length]
  exact hcompress

/-- A placed byte joins the bytes that the core holds (R198). -/
theorem CoreState.Holds.placeByte {c : CoreState} {p : List Byte} (h : c.Holds p) (hf : c.fill.val < 64) (b : Byte)
    (rest : List Byte) : (c.placeByte hf b rest).Holds (p ++ [b]) := by
  obtain ⟨hle, hmod, hh, hbuf⟩ := h
  have hlen : (p ++ [b]).length - (c.fill.val + 1) = p.length - c.fill.val := by simp
  unfold CoreState.Holds
  simp only [placeByte_fill, placeByte_h, hlen]
  refine ⟨by simpa using hle, hmod, by rw [hh, List.take_append_of_le_length (Nat.sub_le ..)], fun j hj => ?_⟩
  rw [Fin.getElem_fin, placeByte_getElem]
  by_cases hlast : j.val = c.fill.val
  · rw [if_pos hlast, hlast, Nat.sub_add_cancel hle]; simp
  · rw [if_neg hlast, List.getElem?_append_left (by omega)]
    exact hbuf j (by omega)

/-- The finalization that FIN1 starts ends in the digest of the message that the core holds (R201, R202, R210). -/
theorem CoreState.Holds.fin1 {c : CoreState} {m : List Byte} (h : c.Holds m) (hf : c.fill.val < 64)
    (hl : c.len = bitLength m.length) :
    ((c.fin1Place hf).startCompress .fin2).afterThisBlock = chain iv (blocks (pad m)) := by
  obtain ⟨hh, hfill, hbuf⟩ := h.of_fill_lt hf
  have hblock := fin1Block_eq_blockAt_pad hf hfill hbuf
  rw [← hl] at hblock
  rw [blocks_pad, chain_append, ← hh, ← hblock, ← hfill]
  unfold CoreState.afterThisBlock
  by_cases h55 : c.fill.val ≤ 55
  · simp [h55]
  · simp [h55, hl, lengthBlock_eq_blockAt_pad _ (show 55 < m.length % 64 by omega)]

end Sys2Proof.Machine
end

section
/-! PROOFS. `Tracks` by phase, and the core's step that keeps it (42_compressor.md R150, 44_commands.md R198 to R203,
R210 to R212). -/

namespace Sys2Proof.Machine

/-! ### `Tracks` by phase -/

/-- What `Tracks` says during a compression, by the phase that follows it; `p` is the placed part of the message `m`. -/
def CoreState.RetTracks (p m : List Byte) (c : CoreState) : Prop :=
  match c.ret with
  | .absorb => c.Holds p
  | .fin2 => c.afterThisBlock = chain iv (blocks (pad m))

/-- What `Tracks` says of H, W and BUF in each phase; `p` is the placed part of the message `m`. -/
def CoreState.PhaseTracks (p m : List Byte) (c : CoreState) : Prop :=
  match c.phase with
  | .idle => if c.done then c.h = chain iv (blocks (pad m)) else c.Holds p
  | .absorb => c.Holds p
  | .round => c.w = md5Rounds (blockWords c.buf) c.h c.rnd.val ∧ c.RetTracks p m
  | .addback => c.w = md5Rounds (blockWords c.buf) c.h 64 ∧ c.RetTracks p m
  | .fin1 => c.Holds p
  | .fin2 => (if c.lenDone then c.h else compress c.h (lengthBlock c.buf c.len)) = chain iv (blocks (pad m))

theorem CoreState.Tracks.phaseTracks {m : List Byte} {c : CoreState} (h : c.Tracks m)
    (hd : c.done = true → c.phase = .idle) : c.PhaseTracks (c.placed m) m := by
  cases hdc : c.done with
  | true => simpa [CoreState.PhaseTracks, hd hdc, hdc] using h.finished hdc
  | false =>
    have habsorbing := h.absorbing hdc
    have hfinalizing := h.finalizing
    unfold CoreState.PhaseTracks CoreState.RetTracks
    cases hp : c.phase with
    | idle => simpa [hdc] using habsorbing (.inl hp)
    | absorb => exact habsorbing (.inr (.inl hp))
    | round =>
      refine ⟨h.inRounds hp, ?_⟩
      cases hr : c.ret with
      | absorb => exact habsorbing (.inr (.inr (.inr ⟨.inl hp, hr⟩)))
      | fin2 => exact hfinalizing ⟨.inl hp, hr⟩
    | addback =>
      refine ⟨h.afterRounds hp, ?_⟩
      cases hr : c.ret with
      | absorb => exact habsorbing (.inr (.inr (.inr ⟨.inr hp, hr⟩)))
      | fin2 => exact hfinalizing ⟨.inr hp, hr⟩
    | fin1 => exact habsorbing (.inr (.inr (.inl hp)))
    | fin2 => exact h.ending hp

theorem tracks_of_phaseTracks {m p : List Byte} {c : CoreState} (hm : p ++ c.pend = m) (hl : c.len = bitLength p.length)
    (hd : c.done = true → c.phase = .idle) (h : c.PhaseTracks p m) : c.Tracks m := by
  have hp : c.placed m = p := placed_of_append hm
  unfold CoreState.PhaseTracks CoreState.RetTracks at h
  constructor
  case pending => rw [hp, hm]
  case counted => rw [hp, hl]
  case absorbing =>
    rw [hp]
    rintro hdc (hph | hph | hph | ⟨hph | hph, hr⟩)
    · simpa [hph, hdc] using h
    · simpa [hph] using h
    · simpa [hph] using h
    · simp only [hph, hr] at h; exact h.2
    · simp only [hph, hr] at h; exact h.2
  case inRounds => intro hph; rw [hph] at h; exact h.1
  case afterRounds => intro hph; rw [hph] at h; exact h.1
  case finalizing => rintro ⟨hph | hph, hr⟩ <;> simp only [hph, hr] at h <;> exact h.2
  case ending => intro hph; rw [hph] at h; exact h
  case finished => intro hdc; simpa [hd hdc, hdc] using h

/-- `Tracks` by phase, for a core that is IDLE when DONE. -/
theorem tracks_iff {m : List Byte} {c : CoreState} (hd : c.done = true → c.phase = .idle) :
    c.Tracks m ↔ ∃ p, p ++ c.pend = m ∧ c.len = bitLength p.length ∧ c.PhaseTracks p m :=
  ⟨fun h => ⟨c.placed m, h.pending, h.counted, h.phaseTracks hd⟩,
    fun ⟨_, hm, hl, h⟩ => tracks_of_phaseTracks hm hl hd h⟩

/-! ### The core's step -/

theorem done_idle_of_inv {c : CoreState} (hi : c.Inv) (hd : c.done = true) : c.phase = .idle :=
  ((inv_iff.mp hi).2.1 hd).1

theorem rnd_succ_val {r : Fin 64} (h : r ≠ 63) : (r + 1).val = r.val + 1 :=
  Fin.val_add_one_of_lt (Fin.lt_last_iff_ne_last.mpr h)

/-- The add-back ends the compression: H is what `RetTracks` says of it, in the phase that RET names (R200). -/
theorem stepAddback_phaseTracks {c : CoreState} {p m : List Byte} (hf : c.fill.val = 64)
    (hw : c.w = md5Rounds (blockWords c.buf) c.h 64) (h : c.RetTracks p m) : (stepAddback c).PhaseTracks p m := by
  unfold CoreState.RetTracks at h
  cases hr : c.ret with
  | absorb =>
    rw [hr] at h
    simpa [CoreState.PhaseTracks, hr, Ret.phase] using h.addback hf hw
  | fin2 =>
    rw [hr] at h
    have hh : (stepAddback c).h = compress c.h c.buf := by rw [stepAddback_h, hw]; rfl
    have hp : (stepAddback c).phase = .fin2 := by rw [stepAddback_phase, hr]; rfl
    rw [CoreState.PhaseTracks, hp, hh]
    exact h

/-- A core step keeps what the core holds of the message. -/
theorem coreStep_phaseTracks {c d : CoreState} {p m : List Byte} (hi : c.Inv) (hm : p ++ c.pend = m)
    (hl : c.len = bitLength p.length) (ht : c.PhaseTracks p m) (h : coreStep c = .next d) :
    ∃ q, q ++ d.pend = m ∧ d.len = bitLength q.length ∧ d.PhaseTracks q m := by
  obtain ⟨hphase, -⟩ := inv_iff.mp hi
  unfold CoreState.PhaseInv at hphase
  unfold CoreState.PhaseTracks at ht
  rcases coreStep_cases h with
    ⟨hp, rfl⟩ | ⟨hp, hf, rfl⟩ | ⟨hf, b, rest, hp, hq, rfl⟩ | ⟨hp, hf, hq, rfl⟩ | ⟨hp, hr, rfl⟩ | ⟨hp, hr, rfl⟩ |
    ⟨hp, rfl⟩ | ⟨hf, hp, rfl⟩ | ⟨hp, hld, rfl⟩ | ⟨hp, hld, rfl⟩ <;> rw [hp] at ht hphase
  · exact ⟨p, hm, hl, by simpa [CoreState.PhaseTracks, hp] using ht⟩
  · exact ⟨p, hm, hl, rfl, ht⟩
  · refine ⟨p ++ [b], by simpa [hq] using hm, ?_, ?_⟩
    · rw [List.length_append, List.length_singleton, bitLength_succ, ← hl]; rfl
    · rw [CoreState.PhaseTracks, CoreState.placeByte_phase, hp]
      exact ht.placeByte hf b rest
  · have hnd : c.done = false := by
      by_contra hd
      simp [done_idle_of_inv hi (by simpa using hd)] at hp
    exact ⟨p, hm, hl, by rw [CoreState.PhaseTracks, hnd]; exact ht⟩
  · refine ⟨p, hm, hl, ?_, ht.2⟩
    rw [md5Rounds_succ, ht.1, hr]; rfl
  · obtain ⟨hw, hret⟩ := ht
    refine ⟨p, hm, hl, ?_⟩
    rw [CoreState.PhaseTracks, hp]
    exact ⟨by rw [rnd_succ_val hr, md5Rounds_succ, ← hw, Fin.ofNat_val_eq_self], hret⟩
  · exact ⟨p, hm, hl, stepAddback_phaseTracks hphase.1 ht.1 ht.2⟩
  · obtain rfl : p = m := by simpa [hphase.2] using hm
    exact ⟨p, hm, hl, rfl, ht.fin1 hf hl⟩
  · refine ⟨p, hm, hl, ?_⟩
    simpa [CoreState.PhaseTracks, hld] using ht
  · refine ⟨p, hm, hl, rfl, ?_⟩
    simpa [CoreState.RetTracks, CoreState.afterThisBlock, hld] using ht

theorem coreStep_tracks {c d : CoreState} {m : List Byte} (hi : c.Inv) (ht : c.Tracks m) (h : coreStep c = .next d) :
    d.Tracks m := by
  obtain ⟨p, hm, hl, hp⟩ := (tracks_iff (done_idle_of_inv hi)).mp ht
  exact (tracks_iff (done_idle_of_inv (coreStep_inv hi h))).mpr (coreStep_phaseTracks hi hm hl hp h)

end Sys2Proof.Machine
end

section
/-! PROOFS. The absorbed message of a step and of a run: every step keeps `Tracks`, so it holds in every run
(44_commands.md R209 to R213). -/

namespace Sys2Proof.Machine

/-! ### The moves of the core and the message -/

theorem fill_pend_of_idle {c : CoreState} (hi : c.Inv) (hp : c.phase = .idle) : c.fill.val ≤ 63 ∧ c.pend = [] := by
  obtain ⟨hidle, -⟩ := hi
  exact hidle hp

/-- An IDLE core with DONE = 0 holds the whole message (R211). -/
theorem CoreState.Tracks.holds_of_idle {c : CoreState} {m : List Byte} (h : c.Tracks m) (hi : c.Inv)
    (hp : c.phase = .idle) (hd : c.done = false) : c.Holds m ∧ c.len = bitLength m.length := by
  obtain ⟨p, hm, hl, ht⟩ := (tracks_iff (done_idle_of_inv hi)).mp h
  obtain rfl : p = m := by simpa [(fill_pend_of_idle hi hp).2] using hm
  rw [CoreState.PhaseTracks, hp, hd] at ht
  exact ⟨ht, hl⟩

/-- ERR, ECAUSE and DATA have no part in `Tracks`. -/
theorem CoreState.Tracks.aside {c : CoreState} {m : List Byte} (h : c.Tracks m) (e : Bool) (k : Cause) (v : Word) :
    CoreState.Tracks m { c with err := e, ecause := k, data := v } :=
  ⟨h.pending, h.counted, h.absorbing, h.inRounds, h.afterRounds, h.finalizing, h.ending, h.finished⟩

/-- INIT begins a new message as a reset does (R193, R209). -/
theorem tracks_nil_initDigest {c : CoreState} (hp : c.phase = .idle) : c.initDigest.Tracks [] :=
  have hr : CoreState.AfterReset { c.initDigest with data := 0 } := ⟨rfl, rfl, rfl, rfl, hp, rfl, rfl, rfl, rfl⟩
  (tracks_nil_of_afterReset hr).aside false .none c.data

/-- How a step moves the core and its absorbed message `m` together (R196, R206, R209). -/
inductive MessageMove (s : State) (m : List Byte) : CoreState → List Byte → Prop where
  | reset : MessageMove s m CoreState.reset []
  | core {d : CoreState} (hd : coreStep s.core = .next d) : MessageMove s m d m
  | init (hp : s.core.phase = .idle) : MessageMove s m s.core.initDigest []
  | absorb (n : Nat) (hp : s.core.phase = .idle) (hd : s.core.done = false) :
      MessageMove s m { s.core with pend := dataBytes s.core.data n, phase := .absorb } (m ++ dataBytes s.core.data n)
  | final (hp : s.core.phase = .idle) (hd : s.core.done = false) : MessageMove s m { s.core with phase := .fin1 } m
  | aside (e : Bool) (k : Cause) (v : Word) : MessageMove s m { s.core with err := e, ecause := k, data := v } m

theorem MessageMove.tracks {s : State} {m m' : List Byte} {d : CoreState} (h : MessageMove s m d m') (hi : s.Inv)
    (ht : s.core.Tracks m) : d.Tracks m' := by
  cases h with
  | reset => exact tracks_nil_of_afterReset (by decide)
  | core hd => exact coreStep_tracks hi ht hd
  | init hp => exact tracks_nil_initDigest hp
  | absorb n hp hd =>
    obtain ⟨hh, hl⟩ := ht.holds_of_idle hi hp hd
    exact tracks_of_phaseTracks rfl hl (by simp [hd]) hh
  | final hp hd =>
    obtain ⟨hh, hl⟩ := ht.holds_of_idle hi hp hd
    exact tracks_of_phaseTracks (by simp [(fill_pend_of_idle hi hp).2]) hl (by simp [hd]) hh
  | aside e k v => exact ht.aside e k v

/-! ### The message of a step (R209) -/

theorem messageAfter_reset {s : State} (ha : nextAgent s = some .reset) (m : List Byte) : s.messageAfter m = [] := by
  simp [State.messageAfter, ha]

theorem messageAfter_of_no_command {s : State} (ha : nextAgent s ≠ some .reset) (hw : s.acceptedWord = none)
    (m : List Byte) : s.messageAfter m = m := by
  unfold State.messageAfter
  split
  · contradiction
  · rw [hw]

theorem nextAgent_of_acceptedWord {s : State} {c : Word} (hw : s.acceptedWord = some c) : nextAgent s = some .host := by
  unfold State.acceptedWord at hw
  split at hw
  · assumption
  · cases hw

/-- With a word accepted the message depends on its command alone: INIT, ABSORB, or any other. -/
theorem messageAfter_of_command {s : State} {c : Word} (hw : s.acceptedWord = some c) (m : List Byte) :
    (decode c = .ok .init → s.messageAfter m = []) ∧
    (∀ n, decode c = .ok (.absorb n) → s.messageAfter m = if s.core.done then m else m ++ dataBytes s.core.data n) ∧
    ((∀ i, decode c = .ok i → i = .nop ∨ i = .final) → s.messageAfter m = m) := by
  unfold State.messageAfter
  rw [nextAgent_of_acceptedWord hw, hw]
  refine ⟨fun hc => by simp only [hc], fun n hc => by simp only [hc], fun hc => ?_⟩
  cases hd : decode c with
  | error e => simp only [hd]
  | ok i => rcases hc i hd with rfl | rfl <;> simp only [hd]

/-- What accepting a word does to the core and the message (R196, R209); `s'` is the machine with the host at its next
line. -/
theorem accept_messageMove {s s' t : State} {c : Word} (m : List Byte) (hp : s.core.phase = .idle)
    (hw : s.acceptedWord = some c) (hs : s'.core = s.core) (h : accept c s' = .next t) :
    MessageMove s m t.core (s.messageAfter m) := by
  obtain ⟨hinit, habsorb, hother⟩ := messageAfter_of_command hw m
  rcases accept_cases h with ⟨i, hc, hi⟩ | ⟨e, hc, rfl⟩
  · rcases exec_cases hi with
      ⟨rfl, rfl⟩ | ⟨rfl, rfl⟩ | ⟨n, rfl, hd, rfl⟩ | ⟨rfl, hd, rfl⟩ | ⟨hop, hd, rfl⟩
    · rw [hother (by simp [hc]), hs]
      exact .aside _ _ _
    · rw [hinit hc, State.withCore_core, hs]
      exact .init hp
    · rw [hs] at hd
      rw [habsorb n hc, hd, State.withCore_core, hs]
      exact .absorb n hp hd
    · rw [hs] at hd
      rw [hother (by simp [hc]), State.withCore_core, hs]
      exact .final hp hd
    · rw [hs] at hd
      have hm : s.messageAfter m = m := by
        rcases hop with ⟨n, rfl⟩ | rfl
        · rw [habsorb n hc, if_pos hd]
        · exact hother (by simp [hc])
      rw [hm, State.withCore_core, hs]
      exact .aside _ _ _
  · rw [hother (by simp [hc]), State.withCore_core, hs]
    exact .aside _ _ _

theorem commandWord_of_register_ne_cmd {a : BusAccess} {r : Reg} (h : a.register = .ok r) (hr : r ≠ .cmd) (v : Word) :
    (HostOp.wr a v).commandWord = none := by
  simp only [HostOp.commandWord, h]
  split
  · simp_all
  · rfl

/-- A write to any register but CMD changes at most DATA (R41, R208). -/
theorem plainWrite_eq_with_data (r : Reg) (v : Word) (c : CoreState) :
    plainWrite r v c = { c with data := (plainWrite r v c).data } := by
  cases r <;> rfl

/-- Every step moves the core and the message in one of the ways of `MessageMove`. -/
theorem step_messageMove {s t : State} (m : List Byte) (h : step s = .next t) :
    MessageMove s m t.core (s.messageAfter m) := by
  rcases step_cases h with ⟨ha, rfl⟩ | ⟨ha, _, c, hc, rfl⟩ | ⟨ha, op, hl, hh, ho⟩ | ⟨ha, rfl⟩
  · rw [messageAfter_reset ha]; exact .reset
  · rw [messageAfter_of_no_command (by simp [ha]) (by simp [State.acceptedWord, ha])]
    exact .core hc
  · have hw := acceptedWord_eq ha hl
    have hkeep (hno : op.commandWord = none) : s.messageAfter m = m :=
      messageAfter_of_no_command (by simp [ha]) (hw.trans hno) m
    rcases hostStep_cases ho with
      ⟨a, v, rfl, hr, hacc⟩ | ⟨a, v, r, rfl, hr, hne, rfl⟩ | ⟨_, _, _, rfl, _, rfl⟩ | ⟨_, _, _, _, rfl, _, rfl⟩
    · have hcmd := commandWord_of_register_cmd hr v
      exact accept_messageMove m (held_commandWord hh hcmd) (hw.trans hcmd) (s' := s.popTurn.hostNext.tick) rfl hacc
    · rw [hkeep (commandWord_of_register_ne_cmd hr hne v), State.withCore_core, plainWrite_eq_with_data]
      exact .aside _ _ _
    · rw [hkeep rfl]; exact .aside _ _ _
    · rw [hkeep rfl]; split <;> exact .aside _ _ _
  · rw [messageAfter_of_no_command (by simp [ha]) (by simp [State.acceptedWord, ha])]
    exact .aside _ _ _

/-- Settles O60: each way a step moves the core and the message together keeps `Tracks`. -/
theorem everyStepTracksTheMessage : Obligations.EveryStepTracksTheMessage :=
  fun m _ _ hi ht h => (step_messageMove m h).tracks hi ht

/-! ### Every run -/

theorem Absorbed.inv_tracks {m : List Byte} {s : State} (h : Absorbed m s) : s.Inv ∧ s.core.Tracks m := by
  induction h with
  | afterReset s h => exact ⟨inv_of_afterReset h, tracks_nil_of_afterReset h⟩
  | afterStep m s t _ hstep ih =>
    obtain ⟨hi, ht⟩ := ih
    exact ⟨everyStepKeepsInvariant s t hi hstep, everyStepTracksTheMessage m s t hi ht hstep⟩

/-- Settles O54: the IDLE core has no byte pending, so it holds the whole message. -/
theorem absorbInvariant : Obligations.AbsorbInvariant := by
  intro m s h hp hd
  obtain ⟨hi, ht⟩ := h.inv_tracks
  obtain ⟨hholds, hl⟩ := ht.holds_of_idle hi hp hd
  obtain ⟨hh, hf, hbuf⟩ := hholds.of_fill_lt (Nat.lt_succ_of_le (fill_pend_of_idle hi hp).1)
  exact ⟨hh, hf, hf ▸ hbuf, by rw [hl, bitLength_toNat]⟩

theorem Absorbed.h_eq {m : List Byte} {s : State} (h : Absorbed m s) (hd : s.core.done = true) :
    s.core.h = chain iv (blocks (pad m)) :=
  h.inv_tracks.2.finished hd

/-- With BUSY = 0 the host reads the serialization of H from the DIGEST registers (R40, R173). -/
theorem bytes_of_digest_registers {s : State} (hp : s.core.phase = .idle) :
    bytes32 (regRead .digest0 s) ++ bytes32 (regRead .digest1 s) ++ bytes32 (regRead .digest2 s) ++
      bytes32 (regRead .digest3 s) = serialize s.core.h := by
  obtain ⟨-, -, hidle⟩ := registerValues s
  obtain ⟨-, -, h0, h1, h2, h3⟩ := hidle hp
  rw [h0, h1, h2, h3, serialize]

/-- Settles O55: H is the chaining value of the padded message, whose serialization is the digest. -/
theorem digestLaw : Obligations.DigestLaw := fun m s h hp hd =>
  have hmd5 : serialize s.core.h = md5 m := congrArg serialize (h.h_eq hd)
  ⟨hmd5, (bytes_of_digest_registers hp).trans hmd5⟩

/-- Settles O56: H is a function of the absorbed message. -/
theorem chunkingIndependence : Obligations.ChunkingIndependence :=
  fun _ _ _ hs ht _ _ hds hdt => (hs.h_eq hds).trans (ht.h_eq hdt).symm

end Sys2Proof.Machine
end

section
/-! PROOFS. Which agent steps, and the step of each: a CMD write in IDLE and while busy, a DATA write, a read, and the
only ways to change the core (44_commands.md R190, R197, R205 to R208). -/

namespace Sys2Proof.Machine

/-! ### The scheduler's choice (R197, R205) -/

theorem held_of_idle {c : CoreState} (hp : c.phase = .idle) (op : HostOp) : op.held c = false := by
  simp [HostOp.held, busy_eq_false.mpr hp]

theorem hostMove_of_idle {s : State} (hp : s.core.phase = .idle) : s.hostMove = s.hostLine := by
  ext op
  simp [hostMove_eq_some, held_of_idle hp]

/-- With the core IDLE the host steps if it has a line, whatever the scheduler chose. -/
theorem nextAgent_of_idle {s : State} (hp : s.core.phase = .idle) (ht : s.turns.head? ≠ some .reset) :
    nextAgent s = s.hostLine.map fun _ => .host := by
  rw [← hostMove_of_idle hp]
  unfold nextAgent hostFirst coreFirst
  rw [busy_eq_false.mpr hp]
  rcases hts : s.turns with _ | ⟨_ | _ | _, _⟩
  case cons.reset => simp [hts] at ht
  all_goals cases s.hostMove <;> rfl

/-- A busy core steps unless the scheduler chose the host and the host has a step. -/
theorem nextAgent_of_busy {s : State} (hp : s.core.phase ≠ .idle) (ht : s.turns.head? ≠ some .reset)
    (hh : s.turns.head? ≠ some .host ∨ s.hostMove = none) : nextAgent s = some .core := by
  unfold nextAgent hostFirst coreFirst
  rw [busy_eq_true.mpr hp]
  rcases hts : s.turns with _ | ⟨_ | _ | _, _⟩
  case cons.reset => simp [hts] at ht
  case cons.host => simp [hh.resolve_left (by simp [hts])]
  all_goals rfl

theorem hostMove_of_no_line {s : State} (hl : s.hostLine = none) : s.hostMove = none := by
  simp [State.hostMove, hl]

/-- Settles O41: with the core IDLE the host's line decides, and with the core busy the choice of the host. -/
theorem schedulerPicksAnEnabledAgent : Obligations.SchedulerPicksAnEnabledAgent := by
  refine fun s => ⟨fun ht => ?_, fun ht => ⟨fun hp hh => nextAgent_of_busy hp ht (.inl hh), ?_, ?_, ?_, ?_⟩⟩
  · obtain ⟨ts, hts⟩ := List.head?_eq_some_iff.mp ht
    rw [nextAgent, hts]
  · rintro hp ⟨op, hl⟩
    rw [nextAgent_of_idle hp ht, hl]; rfl
  · rintro hh ⟨op, hl, hw⟩
    exact nextAgent_eq_host hh hl (by simp [HostOp.held, hw])
  · exact fun hp hl => nextAgent_of_busy hp ht (.inr (hostMove_of_no_line hl))
  · intro hp hl
    have ha : nextAgent s = none := by rw [nextAgent_of_idle hp ht, hl]; rfl
    exact ⟨ha, by rw [step, ha]; rfl⟩

/-! ### A CMD write, accepted and held (R190) -/

/-- Settles O33: the IDLE core leaves the step to the host, whose line is the CMD write. -/
theorem stepRunsTheDecodedCommand : Obligations.StepRunsTheDecodedCommand := by
  intro s c hp ht hl
  have ha : nextAgent s = some .host := by rw [nextAgent_of_idle hp ht, hl]; rfl
  have hstep : step s = accept c s.popTurn.hostNext.tick := by
    rw [step_of_host ha hl, hostStep_wr_ofReg]; rfl
  exact ⟨hstep, fun i hi => by rw [hstep, accept, hi]; rfl⟩

theorem hostMove_of_held {s : State} {op : HostOp} (hl : s.hostLine = some op) (hh : op.held s.core = true) :
    s.hostMove = none := by
  simp [State.hostMove, hl, hh]

theorem step_of_core {s : State} {d : CoreState} (ha : nextAgent s = some .core) (hd : coreStep s.core = .next d) :
    step s = .next (s.popTurn.withCore d).tick := by
  have hd' : coreStep s.popTurn.core = .next d := hd
  simp only [step, ha, agentStep, coreMove, hd', mapNext]

theorem step_of_held {s : State} {c : Word} {d : CoreState} (hp : s.core.phase ≠ .idle)
    (ht : s.turns.head? ≠ some .reset) (hl : s.hostLine = some (.wr (BusAccess.ofReg .cmd) c))
    (hd : coreStep s.core = .next d) : step s = .next (s.popTurn.withCore d).tick :=
  have hheld : (HostOp.wr (BusAccess.ofReg .cmd) c).held s.core = true := by
    simp [HostOp.held, busy_eq_true.mpr hp]
  step_of_core (nextAgent_of_busy hp ht (.inr (hostMove_of_held hl hheld))) hd

/-- Settles O34: the held write leaves the host without a step. -/
theorem commandWriteIsHeldWhileBusy : Obligations.CommandWriteIsHeldWhileBusy :=
  fun _ _ _ hp ht hl hd => step_of_held hp ht hl hd

/-! ### DATA writes and reads (R207, R208) -/

/-- Settles O36: only a CMD write is held, so the host steps whether the core is busy or not. -/
theorem dataWriteInAnyState : Obligations.DataWriteInAnyState := by
  intro s v ht hl
  rw [step_of_host (nextAgent_eq_host ht hl (held_wr_ofReg (r := .data) (by decide) v _)) hl, hostStep_wr_ofReg]; rfl

/-- A register shows the core, the machine's number and the point of its run, and nothing else of the machine. -/
theorem regRead_congr {s t : State} (r : Reg) (hc : t.core = s.core) (he : t.epoch = s.epoch) (hu : t.unit = s.unit) :
    regRead r t = regRead r s := by
  cases s; cases t
  cases hc; cases he; cases hu
  cases r <;> rfl

/-- Settles O38: the step adds to what the host has read, and no register shows that. -/
theorem registerReadChangesNothing : Obligations.RegisterReadChangesNothing := by
  intro s r name ht hl
  refine ⟨_, ?_, rfl, fun r' => regRead_congr r' rfl rfl rfl⟩
  rw [step_of_host (nextAgent_eq_host ht hl rfl) hl]
  simp only [hostStep, register_ofReg, regRead_congr (s := s) (t := s.popTurn) r rfl rfl rfl]; rfl

/-! ### The only ways to change the core (R206) -/

/-- Settles O46: of the host's lines only a CMD write and a DATA write reach the core. -/
theorem onlyTheseStepsChangeTheCore : Obligations.OnlyTheseStepsChangeTheCore := by
  intro s t h hne
  rcases step_cases h with ⟨ha, rfl⟩ | ⟨ha, hb, c, hc, rfl⟩ | ⟨ha, op, hl, hh, ho⟩ | ⟨_, rfl⟩
  · exact .inl ⟨ha, by rw [applyReset_core]; decide⟩
  · exact .inr (.inl ⟨ha, hb, hc⟩)
  · rcases hostStep_cases ho with
      ⟨a, c, rfl, hr, hacc⟩ | ⟨a, v, r, rfl, hr, _, rfl⟩ | ⟨_, _, _, _, _, rfl⟩ | ⟨_, _, _, _, _, _, rfl⟩
    · have hp := held_commandWord hh (commandWord_of_register_cmd hr c)
      exact .inr (.inr (.inl ⟨ha, hp, a, c, hl, hr, hacc⟩))
    · by_cases hd : r = .data
      · subst hd
        exact .inr (.inr (.inr ⟨ha, a, v, hl, hr, rfl⟩))
      · exact absurd (plainWrite_of_ne_data hd v s.core) hne
    · exact absurd rfl hne
    · refine absurd ?_ hne
      split <;> rfl
  · exact absurd rfl hne

end Sys2Proof.Machine
end

section
/-! PROOFS. The four commands at acceptance and the order of `Accept` (44_commands.md R191 to R196). -/

namespace Sys2Proof.Machine

/-- Settles O4: by the two values of ERR. -/
theorem setErrKeepsFirstCause : Obligations.SetErrKeepsFirstCause := by
  refine fun c code => ⟨fun he => ?_, fun he => ?_⟩
  · simp [CoreState.setErr, he]
  · cases c; cases he; rfl

/-- Settles O5: the words with OP = 0 and another bit set are illegal by R84. -/
theorem nopChangesNothing : Obligations.NopChangesNothing := by
  refine ⟨fun s _ => rfl, decode_encode (i := .nop) rfl, fun c hop hne => legal_eq_false ?_, _, rfl, by decide⟩
  have hne' : c.toNat ≠ 0 := fun h => hne (BitVec.eq_of_toNat_eq h)
  omega

/-- STATUS is 0 when the IDLE core has nothing to report (R38). -/
theorem regRead_status_eq_zero {s : State} (hp : s.core.phase = .idle) (hf : s.core.fill = 0)
    (hd : s.core.done = false) (he : s.core.err = false) (hc : s.core.ecause = .none) : regRead .status s = 0 := by
  rw [regRead, settledFill_of_idle hp, statusWord, hf, hc, he, hd, busy_eq_false.mpr hp]
  rfl

/-- Settles O6: the registers show the core that `initDigest` leaves, and a held INIT waits as any CMD write does. -/
theorem initStartsNewDigest : Obligations.InitStartsNewDigest := by
  refine ⟨decode_encode (i := .init) rfl, fun s hp => ?_, fun s d => commandWriteIsHeldWhileBusy s 0x00000001 d⟩
  obtain ⟨-, -, hidle⟩ := registerValues (s.withCore s.core.initDigest)
  obtain ⟨-, -, h0, h1, h2, h3⟩ := hidle hp
  exact ⟨s.withCore s.core.initDigest, rfl, rfl, regRead_status_eq_zero hp rfl rfl rfl rfl, h0, h1, h2, h3, rfl⟩

theorem exec_final_of_not_done {s : State} (h : s.core.done = false) :
    exec .final s = .next (s.withCore { s.core with phase := .fin1 }) :=
  unlessDone_of_not_done h fun c => { c with phase := .fin1 }

/-- Settles O8: the frame is that of the one assignment. -/
theorem finalEntersFinalization : Obligations.FinalEntersFinalization :=
  fun _ _ hd => exec_final_of_not_done hd

/-- The fields of a legal word as numbers, with its command (R80 to R82). -/
theorem decode_of_legal {c : Word} (h : legal c = true) :
    c.toNat % 16 = 0 ∧ decode c = .ok .nop ∨ c.toNat % 16 = 1 ∧ decode c = .ok .init ∨
      c.toNat % 16 = 2 ∧ decode c = .ok (.absorb (c.toNat / 16 % 4 + 1)) ∨
      c.toNat % 16 = 3 ∧ decode c = .ok .final := by
  obtain ⟨i, hi⟩ := (legal_iff_decodes c).mp h
  have hop := opField_toNat c
  obtain ⟨-, ⟨ho, -, rfl⟩ | ⟨ho, -, rfl⟩ | ⟨ho, rfl⟩ | ⟨ho, -, rfl⟩⟩ := decode_eq_ok_iff.mp hi <;> rw [ho] at hop
  · exact .inl ⟨hop.symm, hi⟩
  · exact .inr (.inl ⟨hop.symm, hi⟩)
  · exact .inr (.inr (.inl ⟨hop.symm, by rw [hi, nbm1Field_toNat]⟩))
  · exact .inr (.inr (.inr ⟨hop.symm, hi⟩))

theorem accept_of_decode {c : Word} {i : Instr} (h : decode c = .ok i) (s : State) : accept c s = exec i s := by
  rw [accept, h]

/-- ABSORB and FINAL with DONE = 1 have one outcome (R196). -/
theorem exec_of_done {s : State} {i : Instr} (h : s.core.done = true) (hi : (∃ n, i = .absorb n) ∨ i = .final) :
    exec i s = .next (s.withCore (s.core.setErr .sequenceError)) := by
  rcases hi with ⟨n, rfl⟩ | rfl <;> simp [exec, execAbsorb, execFinal, unlessDone, h]

/-- Settles O11: an illegal word is met first; a legal one by its opcode, and ABSORB and FINAL by DONE. -/
theorem acceptDispatchesInOrder : Obligations.AcceptDispatchesInOrder := by
  intro s c _
  by_cases hl : legal c = false
  · rw [if_pos hl, accept_of_illegal hl]; rfl
  rw [if_neg hl]
  obtain ⟨hop, hc⟩ | ⟨hop, hc⟩ | ⟨hop, hc⟩ | ⟨hop, hc⟩ := decode_of_legal (by simpa using hl) <;>
    rw [accept_of_decode hc, hop]
  · rfl
  · rfl
  · cases hd : s.core.done with
    | true => rw [exec_of_done hd (.inl ⟨_, rfl⟩)]; rfl
    | false =>
      rw [exec_absorb_of_not_done hd, dataBytes_eq_map _ (Nat.mod_lt _ (by decide))]; rfl
  · cases hd : s.core.done with
    | true => rw [exec_of_done hd (.inr rfl)]; rfl
    | false => rw [exec_final_of_not_done hd]; rfl

end Sys2Proof.Machine
end

section
/-! PROOFS. The core's own step in each phase, with its frame (44_commands.md R198 to R203). -/

namespace Sys2Proof.Machine

/-- Settles O12: the three branches of the step exclude each other by FILL and PEND. -/
theorem absorbStepPlacesByteOrCompresses : Obligations.AbsorbStepPlacesByteOrCompresses := by
  intro c hp
  refine ⟨fun hf => ?_, fun b rest hf hq => ?_, coreStep_absorb_end hp, fun d hd hd' => ?_⟩
  · exact coreStep_absorb_full hp (by omega)
  · refine ⟨_, coreStep_place hp hf hq, fun j => placeByte_getElem c hf b rest j.val j.isLt, rfl, ?_, rfl⟩
    exact BitVec.toNat_add c.len 8
  · by_cases hf : c.fill.val < 64
    · cases hq : c.pend with
      | nil => rw [coreStep_absorb_end hp hf hq] at hd; cases hd; exact Nat.le_of_lt_succ hf
      | cons b rest => rw [coreStep_place hp hf hq] at hd; cases hd; simp [hp] at hd'
    · rw [coreStep_absorb_full hp hf] at hd; cases hd; cases hd'

/-- Settles O13: the round before the last one counts on without wrapping. -/
theorem roundStepDoesOneRound : Obligations.RoundStepDoesOneRound := by
  refine fun c hp => ⟨fun hr => coreStep_last_round hp (Fin.ext hr), fun r hr => ?_⟩
  have hmore : c.rnd ≠ 63 := fun h => by rw [h] at hr; omega
  have hnext : r = c.rnd + 1 := by rw [Fin.ext_iff, rnd_succ_val hmore, hr]
  rw [coreStep_round hp hmore, hnext]

/-- Settles O14: `Ret.phase` names the phase of each value of RET. -/
theorem addbackStepAddsWorkingRegisters : Obligations.AddbackStepAddsWorkingRegisters := by
  intro c hp
  rw [coreStep_addback hp]
  rfl

/-- No core step enters FIN1. -/
theorem coreStep_phase_ne_fin1 {c d : CoreState} (h : coreStep c = .next d) : d.phase ≠ .fin1 := by
  rcases coreStep_cases h with
    ⟨hp, rfl⟩ | ⟨_, _, rfl⟩ | ⟨_, _, _, hp, _, rfl⟩ | ⟨_, _, _, rfl⟩ | ⟨_, _, rfl⟩ | ⟨hp, _, rfl⟩ |
    ⟨_, rfl⟩ | ⟨_, _, rfl⟩ | ⟨_, _, rfl⟩ | ⟨_, _, rfl⟩
  case inr.inr.inr.inr.inr.inr.inl => cases hr : c.ret <;> simp [hr, Ret.phase]
  all_goals simp_all

theorem CoreMove.enters_fin1 {s : State} {d : CoreState} (h : CoreMove s d) (h0 : s.core.phase ≠ .fin1)
    (h1 : d.phase = .fin1) : s.core.phase = .idle ∧ s.acceptedWord = some 0x00000003 ∧ d.fill = s.core.fill := by
  cases h with
  | reset => cases h1
  | core _ _ hd => exact absurd h1 (coreStep_phase_ne_fin1 hd)
  | init => exact absurd h1 h0
  | absorb => cases h1
  | final hp hw hc => exact ⟨hp, hw.trans (congrArg some (encode_of_decode hc).symm), rfl⟩
  | _ => exact absurd h1 h0

/-- Settles O15: an accepted FINAL alone enters FIN1, and keeps the FILL that the invariant gives an IDLE core. -/
theorem fin1StepPlacesPadding : Obligations.Fin1StepPlacesPadding := by
  refine ⟨fun c hp hf => ?_, fun s t hi h h0 h1 => ?_⟩
  · refine ⟨_, coreStep_fin1 hp (Nat.lt_succ_of_le hf), fun j => ?_, rfl⟩
    rw [← lenByte_eq_ofNat]
    exact fin1Block_getElem c.buf c.fill.val _ c.len j.val j.isLt
  · obtain ⟨hp, hw, hf⟩ := (step_coreMove h).enters_fin1 h0 h1
    exact ⟨hw, hf, hf ▸ (fill_pend_of_idle hi hp).1⟩

/-- Settles O16: by LENDONE. -/
theorem fin2StepEndsOrFormsLengthBlock : Obligations.Fin2StepEndsOrFormsLengthBlock := by
  refine fun c hp => ⟨coreStep_fin2_done hp, fun hl => ⟨_, coreStep_fin2_length hp hl, fun j => ?_, rfl⟩⟩
  rw [← lenByte_eq_ofNat]
  exact lengthBlock_getElem c.buf c.len j.val j.isLt

end Sys2Proof.Machine
end

section
/-! PROOFS. How many steps the core takes until it is IDLE, and a held CMD write that waits for it (44_commands.md R190,
R204, R205). -/

namespace Sys2Proof.Machine

/-! ### The steps left -/

/-- The steps from phase ABSORB with `fill` bytes in BUF and `pend` in PEND: one for each byte, one for the return to
IDLE, and 66 for each compression: its start, 64 rounds, and the add-back. -/
def absorbSteps (fill pend : Nat) : Nat := pend + 1 + 66 * ((fill + pend) / 64)

/-- The steps from phase FIN2: with the length still to place, a compression of its block comes first. -/
def fin2Steps (lenDone : Bool) : Nat := if lenDone then 1 else 67

/-- The steps from the phase that RET names, which the add-back enters with FILL = 0. -/
def CoreState.returnSteps (c : CoreState) : Nat :=
  match c.ret with
  | .absorb => absorbSteps 0 c.pend.length
  | .fin2 => fin2Steps c.lenDone

/-- The number of core steps until the core is IDLE (R204). -/
def CoreState.stepsLeft (c : CoreState) : Nat :=
  match c.phase with
  | .idle => 0
  | .absorb => absorbSteps c.fill.val c.pend.length
  | .round => (64 - c.rnd.val) + 1 + c.returnSteps
  | .addback => 1 + c.returnSteps
  | .fin1 => 66 + fin2Steps (decide (c.fill.val ≤ 55))
  | .fin2 => fin2Steps c.lenDone

theorem stepsLeft_eq_zero_iff {c : CoreState} : c.stepsLeft = 0 ↔ c.phase = .idle := by
  cases hp : c.phase <;> simp [CoreState.stepsLeft, hp, absorbSteps, fin2Steps]
  split <;> simp

/-- Every step of a busy core is one of the steps left. -/
theorem coreStep_stepsLeft {c d : CoreState} (hb : c.phase ≠ .idle) (h : coreStep c = .next d) :
    c.stepsLeft = d.stepsLeft + 1 := by
  rcases coreStep_cases h with
    ⟨hp, _⟩ | ⟨hp, hf, rfl⟩ | ⟨hf, b, rest, hp, hq, rfl⟩ | ⟨hp, hf, hq, rfl⟩ | ⟨hp, hr, rfl⟩ | ⟨hp, hr, rfl⟩ |
    ⟨hp, rfl⟩ | ⟨hf, hp, rfl⟩ | ⟨hp, hld, rfl⟩ | ⟨hp, hld, rfl⟩
  · exact absurd hp hb
  · simp only [CoreState.stepsLeft, hp, hf, CoreState.returnSteps, absorbSteps, CoreState.startCompress_phase,
      CoreState.startCompress_ret, CoreState.startCompress_pend, CoreState.startCompress_rnd, Fin.val_zero]
    omega
  · simp only [CoreState.stepsLeft, hp, hq, absorbSteps, CoreState.placeByte_phase, CoreState.placeByte_fill,
      CoreState.placeByte_pend, List.length_cons, Nat.add_right_comm _ 1, ← Nat.add_assoc]
  · simp only [CoreState.stepsLeft, hp, hq, absorbSteps, List.length_nil]
    omega
  · simp only [CoreState.stepsLeft, hp, hr]
    change 64 - 63 + 1 + c.returnSteps = 1 + c.returnSteps + 1
    omega
  · have hlast : c.rnd.val ≠ 63 := fun h => hr (Fin.ext h)
    simp only [CoreState.stepsLeft, hp, rnd_succ_val hr]
    change 64 - c.rnd.val + 1 + c.returnSteps = 64 - (c.rnd.val + 1) + 1 + c.returnSteps + 1
    omega
  · simp only [CoreState.stepsLeft, hp, CoreState.returnSteps, stepAddback_phase]
    cases hr : c.ret <;> simp [Ret.phase] <;> omega
  · simp only [CoreState.stepsLeft, hp, CoreState.returnSteps, CoreState.startCompress_phase,
      CoreState.startCompress_ret, CoreState.startCompress_rnd, CoreState.startCompress_lenDone,
      CoreState.fin1Place_lenDone, Fin.val_zero]
    omega
  · simp [CoreState.stepsLeft, hp, hld, fin2Steps]
  · simp [CoreState.stepsLeft, hp, hld, fin2Steps, CoreState.returnSteps]

/-- The bound of R204, which FINAL reaches with FILL from 56 on. -/
theorem stepsLeft_le {c : CoreState} (hi : c.Inv) : c.stepsLeft ≤ 133 := by
  obtain ⟨-, -, -, hq⟩ := inv_iff.mp hi
  have hfin2 (l : Bool) : fin2Steps l ≤ 67 := by cases l <;> decide
  have hreturn : c.returnSteps ≤ 67 := by
    unfold CoreState.returnSteps
    cases c.ret with
    | absorb => simp only [absorbSteps]; omega
    | fin2 => exact hfin2 _
  unfold CoreState.stepsLeft
  cases c.phase with
  | idle => exact Nat.zero_le _
  | absorb => simp only [absorbSteps]; omega
  | round => simp only; omega
  | addback => simp only; omega
  | fin1 => exact Nat.add_le_add_left (hfin2 _) 66
  | fin2 => exact (hfin2 _).trans (by decide)

/-! ### The core alone (R204) -/

theorem idleAfter_zero {c : CoreState} (hp : c.phase = .idle) : c.IdleAfter 0 := ⟨⟨c, rfl, hp⟩, nofun⟩

theorem CoreState.IdleAfter.succ {c d : CoreState} {k : Nat} (h : d.IdleAfter k) (hb : c.phase ≠ .idle)
    (hd : coreStep c = .next d) : c.IdleAfter (k + 1) := by
  obtain ⟨hend, hbusy⟩ := h
  refine ⟨by rwa [coreRun_succ hd], fun j hj => ?_⟩
  cases j with
  | zero => exact ⟨c, rfl, hb⟩
  | succ j => rw [coreRun_succ hd]; exact hbusy j (Nat.lt_of_succ_lt_succ hj)

/-- The core is IDLE after the steps left and busy before, if FIN1 can place its marker (R201). -/
theorem idleAfter_stepsLeft {c : CoreState} (hf : c.phase = .fin1 → c.fill.val < 64) : c.IdleAfter c.stepsLeft := by
  induction hk : c.stepsLeft generalizing c with
  | zero => exact idleAfter_zero (stepsLeft_eq_zero_iff.mp hk)
  | succ k ih =>
    have hb : c.phase ≠ .idle := fun hp => by simp [stepsLeft_eq_zero_iff.mpr hp] at hk
    obtain ⟨d, hd⟩ := coreStep_answers c hf
    have hleft := coreStep_stepsLeft hb hd
    exact (ih (fun h => absurd h (coreStep_phase_ne_fin1 hd)) (by omega)).succ hb hd

theorem fin1_fill_of_inv {c : CoreState} (hi : c.Inv) (hp : c.phase = .fin1) : c.fill.val < 64 := by
  obtain ⟨hphase, -⟩ := inv_iff.mp hi
  rw [CoreState.PhaseInv, hp] at hphase
  exact Nat.lt_succ_of_le hphase.1

theorem idleAfter_absorb {s t : State} {n : Nat} (hn : n ≤ 4) (hd : s.core.done = false) (hf : s.core.fill.val ≤ 63)
    (h : exec (.absorb n) s = .next t) : t.core.IdleAfter (if s.core.fill.val + n < 64 then n + 1 else n + 67) := by
  rw [exec_absorb_of_not_done hd, Host.Outcome.next.injEq] at h
  subst h
  have hcount : absorbSteps s.core.fill.val (dataBytes s.core.data n).length =
      if s.core.fill.val + n < 64 then n + 1 else n + 67 := by
    rw [dataBytes_length, Nat.min_eq_left hn, absorbSteps]
    split <;> omega
  exact hcount ▸ idleAfter_stepsLeft nofun

theorem idleAfter_final {s t : State} (hd : s.core.done = false) (hf : s.core.fill.val ≤ 63)
    (h : exec .final s = .next t) : t.core.IdleAfter (if s.core.fill.val ≤ 55 then 67 else 133) := by
  rw [exec_final_of_not_done hd, Host.Outcome.next.injEq] at h
  subst h
  have hcount : 66 + fin2Steps (decide (s.core.fill.val ≤ 55)) = if s.core.fill.val ≤ 55 then 67 else 133 := by
    by_cases h55 : s.core.fill.val ≤ 55 <;> simp [h55, fin2Steps]
  exact hcount ▸ idleAfter_stepsLeft fun _ => Nat.lt_succ_of_le hf

/-- NOP, INIT, an illegal word and, with DONE = 1, every word leave the core IDLE (R196). -/
theorem accept_stays_idle {s t : State} {c : Word} (hp : s.core.phase = .idle)
    (hc : c = 0x00000000 ∨ c = 0x00000001 ∨ legal c = false ∨ s.core.done = true) (h : accept c s = .next t) :
    t.core.phase = .idle := by
  have hquick {i : Instr} (hi : decode c = .ok i) (hne : i ≠ .nop) (hne' : i ≠ .init) : s.core.done = true := by
    rcases hc with rfl | rfl | hl | hd
    · cases hi; exact absurd rfl hne
    · cases hi; exact absurd rfl hne'
    · simp [(legal_iff_decodes c).mpr ⟨i, hi⟩] at hl
    · exact hd
  rcases accept_cases h with ⟨i, hi, he⟩ | ⟨e, _, rfl⟩
  · rcases exec_cases he with ⟨_, rfl⟩ | ⟨_, rfl⟩ | ⟨n, rfl, hd, _⟩ | ⟨rfl, hd, _⟩ | ⟨_, _, rfl⟩
    · exact hp
    · exact hp
    · simp [hquick hi nofun nofun] at hd
    · simp [hquick hi nofun nofun] at hd
    · exact hp
  · exact hp

/-- Settles O53: every count is the number of steps left. -/
theorem stepCountsFromAcceptance : Obligations.StepCountsFromAcceptance :=
  ⟨fun _ _ _ _ hn _ hd hf h => idleAfter_absorb hn hd hf h, fun _ _ _ hd hf h => idleAfter_final hd hf h,
    fun _ _ _ hp hc h => idleAfter_zero (accept_stays_idle hp hc h),
    fun _ hi => ⟨_, stepsLeft_le hi, idleAfter_stepsLeft (fin1_fill_of_inv hi)⟩⟩

/-! ### A held CMD write (R190) -/

/-- While a CMD write is held and no reset is scheduled, the machine runs as the core alone. -/
theorem machineRun_of_held {s : State} {c : Word} (hf : s.core.phase = .fin1 → s.core.fill.val < 64)
    (ht : Turn.reset ∉ s.turns) (hl : s.hostLine = some (.wr (BusAccess.ofReg .cmd) c)) :
    ∃ t : State, machineRun s.core.stepsLeft s = .next t ∧ coreRun s.core.stepsLeft s.core = .next t.core ∧
      t.core.phase = .idle ∧ t.program = s.program ∧ t.hostPc = s.hostPc ∧ t.reads = s.reads ∧ t.unit = s.unit := by
  induction hk : s.core.stepsLeft generalizing s with
  | zero => exact ⟨s, rfl, rfl, stepsLeft_eq_zero_iff.mp hk, rfl, rfl, rfl, rfl⟩
  | succ k ih =>
    have hb : s.core.phase ≠ .idle := fun hp => by simp [stepsLeft_eq_zero_iff.mpr hp] at hk
    obtain ⟨d, hd⟩ := coreStep_answers s.core hf
    have hleft := coreStep_stepsLeft hb hd
    have hstep := step_of_held hb (fun h => ht (List.mem_of_mem_head? h)) hl hd
    rw [machineRun_succ hstep, coreRun_succ hd]
    exact ih (s := (s.popTurn.withCore d).tick) (fun h => absurd h (coreStep_phase_ne_fin1 hd))
      (fun h => ht (List.mem_of_mem_tail h)) hl (by simp only [State.tick_core, State.withCore_core]; omega)

/-- Settles O35: the write is held for the steps that the core has left, at most 133 under the invariant. -/
theorem heldWriteWaitsAtMost133Steps : Obligations.HeldWriteWaitsAtMost133Steps :=
  fun _ _ hi _ ht hl => ⟨_, stepsLeft_le hi, machineRun_of_held (fin1_fill_of_inv hi) ht hl⟩

end Sys2Proof.Machine
end

section
/-! PROOFS. Errors and stops (60_exceptions.md R230 to R232): with the invariant no step faults, a ready host is never
refused, and only two kinds of accepted word raise ERR. -/

namespace Sys2Proof.Machine

/-! ### No fault, and no refusal of a ready host (R230) -/

theorem regWrite_next (r : Reg) (v : Word) (s : State) : ∃ d, regWrite r v s = .next (s.withCore d) := by
  by_cases hr : r = .cmd
  · subst hr; exact accept_next v s
  · exact ⟨_, regWrite_of_ne_cmd hr v s⟩

/-- A line of the host is refused or goes on. -/
theorem hostStep_ne_fault (op : HostOp) (s : State) (f : Fault) : hostStep op s ≠ .fault f := by
  cases op with
  | wr a v =>
    cases hr : a.register with
    | ok r =>
      obtain ⟨d, hd⟩ := regWrite_next r v s.hostNext.tick
      simp [hostStep, hr, hd]
    | error e => simp [hostStep, hr]
  | rd a name => cases hr : a.register <;> simp [hostStep, hr]
  | bnz name mask target => cases hv : s.nameValue name <;> simp [hostStep, hv]

/-- An admitted line goes on, if a branch reads a name that the host has read (R66, R87). -/
theorem hostStep_next {op : HostOp} {s : State} (ha : op.Admitted)
    (hn : ∀ name mask target, op = .bnz name mask target → s.nameValue name ≠ none) :
    ∃ t, hostStep op s = .next t := by
  cases op with
  | wr a v =>
    obtain ⟨r, hr⟩ := ha
    obtain ⟨d, hd⟩ := regWrite_next r v s.hostNext.tick
    exact ⟨_, by simpa only [hostStep, hr] using hd⟩
  | rd a name =>
    obtain ⟨r, hr⟩ := ha
    exact ⟨_, by simp only [hostStep, hr]; rfl⟩
  | bnz name mask target =>
    obtain ⟨v, hv⟩ := Option.ne_none_iff_exists'.mp (hn name mask target rfl)
    exact ⟨_, by simp only [hostStep, hv]; rfl⟩

/-- With the invariant only a line of the host can stop the machine. -/
theorem step_next_or_hostStep {s : State} (hi : s.Inv) :
    (∃ t, step s = .next t) ∨ ∃ op, s.hostLine = some op ∧ step s = hostStep op s.popTurn := by
  cases ha : nextAgent s with
  | none => exact .inl ⟨s.popTurn, by rw [step, ha]; rfl⟩
  | some who =>
    cases who with
    | reset => exact .inl ⟨applyReset s.popTurn, by rw [step, ha]; rfl⟩
    | core =>
      obtain ⟨d, hd⟩ := coreStep_answers s.core (fin1_fill_of_inv hi)
      exact .inl ⟨_, step_of_core ha hd⟩
    | host =>
      obtain ⟨op, hl, -⟩ := nextAgent_host ha
      exact .inr ⟨op, hl, step_of_host ha hl⟩

/-- Settles O45: the core answers under the invariant, so a stop is a refusal of the host's line. -/
theorem machineGoesOn : Obligations.MachineGoesOn := by
  intro s hi
  rcases step_next_or_hostStep hi with ⟨t, ht⟩ | ⟨op, hl, hstep⟩
  · exact ⟨fun f => by simp [ht], fun _ => ⟨t, ht⟩⟩
  · refine ⟨fun f => hstep ▸ hostStep_ne_fault op s.popTurn f, fun hready => ?_⟩
    obtain ⟨hadm, hname⟩ := hready op hl
    exact hstep ▸ hostStep_next hadm hname

/-! ### What raises an error (R231, R232) -/

/-- The opcodes of ABSORB and FINAL (R81). -/
theorem opcode_of_absorb_or_final {c : Word} {i : Instr} (hc : decode c = .ok i)
    (hi : (∃ n, i = .absorb n) ∨ i = .final) : c.toNat % 16 = 2 ∨ c.toNat % 16 = 3 := by
  rw [← opField_toNat]
  obtain ⟨-, ⟨-, -, rfl⟩ | ⟨-, -, rfl⟩ | ⟨ho, -⟩ | ⟨ho, -, -⟩⟩ := decode_eq_ok_iff.mp hc
  · simp at hi
  · simp at hi
  · exact .inl (by rw [ho]; rfl)
  · exact .inr (by rw [ho]; rfl)

theorem legal_eq_false_of_decode_error {c : Word} {e : Reject} (hc : decode c = .error e) : legal c = false := by
  rw [← Bool.not_eq_true, legal_iff_decodes, hc]
  exact nofun

theorem CoreMove.err_rises {s : State} {d : CoreState} (h : CoreMove s d) (h0 : s.core.err = false)
    (h1 : d.err = true) :
    ∃ c, s.acceptedWord = some c ∧
      ((legal c = false ∧ d.ecause = .illegalCommand) ∨
        (legal c = true ∧ s.core.done = true ∧ (c.toNat % 16 = 2 ∨ c.toNat % 16 = 3) ∧ d.ecause = .sequenceError)) := by
  have hfirst (code : Cause) : (s.core.setErr code).ecause = code := by simp [h0]
  have hne : d.err ≠ s.core.err := by simp [h0, h1]
  cases h with
  | reset => cases h1
  | core _ _ hd => exact absurd (coreStep_writes hd).err hne
  | init => cases h1
  | sequence _ hw hc hi hd =>
    exact ⟨_, hw, .inr ⟨(legal_iff_decodes _).mpr ⟨_, hc⟩, hd, opcode_of_absorb_or_final hc hi, hfirst _⟩⟩
  | illegal _ hw hc => exact ⟨_, hw, .inl ⟨legal_eq_false_of_decode_error hc, hfirst _⟩⟩
  | _ => exact absurd rfl hne

/-- Settles O50: the two moves that do `SetErr` are the only ones that raise ERR. -/
theorem onlyTheseRaiseAnError : Obligations.OnlyTheseRaiseAnError :=
  fun _ _ h h0 h1 => (step_coreMove h).err_rises h0 h1

/-- Settles O9: the frame is that of `setErr`. -/
theorem sequenceErrorAfterDone : Obligations.SequenceErrorAfterDone :=
  fun _ _ _ hd hi => exec_of_done hd hi

end Sys2Proof.Machine
end

section
/-! PROOFS. What stays: the state of an IDLE core without a command (60_exceptions.md R242, 20_memory.md R71), and the
other instances of a system (R239, R73). -/

namespace Sys2Proof.Machine

/-! ### The IDLE core (R242) -/

theorem CoreMove.idle_keeps {s : State} {d : CoreState} (h : CoreMove s d) (hp : s.core.phase = .idle)
    (hr : nextAgent s ≠ some .reset) (hw : s.acceptedWord = none) : d = { s.core with data := d.data } := by
  cases h with
  | reset ha => exact absurd ha hr
  | core _ hb _ => exact absurd hp hb
  | data => rfl
  | same => rfl
  | init _ hcmd | absorb _ hcmd | final _ hcmd | sequence _ hcmd | illegal _ hcmd => cases hw.symm.trans hcmd

/-- DATA is seen in its own register alone, and with BUSY = 0 no register shows a free value (R36-R40). -/
theorem regRead_of_idle_except_data {s t : State} {v : Word} (hp : s.core.phase = .idle)
    (ht : t.core = { s.core with data := v }) {r : Reg} (hr : r ≠ .data) : regRead r t = regRead r s := by
  have hp' : t.core.phase = .idle := by rw [ht]; exact hp
  cases r with
  | data => exact absurd rfl hr
  | status => simp only [regRead, settledFill_of_idle hp, settledFill_of_idle hp', ht]; rfl
  | _ => simp only [regRead, settledWord_of_idle hp, settledWord_of_idle hp', ht]

/-- Settles O52: without a reset or a command the IDLE core moves by a DATA write alone. -/
theorem idleCoreHoldsItsState : Obligations.IdleCoreHoldsItsState := fun _ _ h hp hr hw =>
  have hkeep := (step_coreMove h).idle_keeps hp hr hw
  ⟨hkeep, fun _ hne => regRead_of_idle_except_data hp hkeep hne⟩

/-! ### Instances (R239) -/

theorem System.step_of_unit {y : System} {k : Nat} {s : State} (h : y.units[k]? = some s) :
    System.step k y = mapNext (fun t => ⟨y.units.set k t⟩) (Machine.step s) := by
  rw [System.step, h]

/-- A system goes on exactly as the instance that steps. -/
theorem System.step_eq_next {y y' : System} {k : Nat} {s : State} (h : y.units[k]? = some s) :
    System.step k y = .next y' ↔ ∃ t, Machine.step s = .next t ∧ ⟨y.units.set k t⟩ = y' := by
  rw [System.step_of_unit h, mapNext_eq_next]

theorem System.getElem?_set_unit {y : System} {k : Nat} {s : State} (h : y.units[k]? = some s) (t : State) :
    (y.units.set k t)[k]? = some t :=
  List.getElem?_set_self (List.getElem?_eq_some_iff.mp h).1

theorem System.resetOf_numbered (n : Nat) : (System.resetOf n).Numbered := by
  intro k s h
  rw [System.resetOf, List.getElem?_map] at h
  obtain ⟨i, hi, rfl⟩ := Option.map_eq_some_iff.mp h
  obtain ⟨-, rfl⟩ := List.getElem?_eq_some_iff.mp hi
  exact List.getElem_range _

/-- A step keeps the number of the instance that takes it, and the other instances stay. -/
theorem System.step_numbered {y y' : System} {k : Nat} (hy : y.Numbered) (h : System.step k y = .next y') :
    y'.Numbered := by
  cases hk : y.units[k]? with
  | none =>
    rw [System.step, hk, Host.Outcome.next.injEq] at h
    exact h ▸ hy
  | some s =>
    obtain ⟨t, ht, rfl⟩ := (System.step_eq_next hk).mp h
    intro j u hj
    by_cases hjk : j = k
    · subst hjk
      obtain rfl : t = u := by simpa [System.getElem?_set_unit hk t] using hj
      rw [step_unit ht, hy j s hk]
    · rw [List.getElem?_set_ne (Ne.symm hjk)] at hj
      exact hy j u hj

/-- Settles O58: the step replaces the instance at its own place in the list and no other. -/
theorem instancesAreIndependent : Obligations.InstancesAreIndependent := by
  refine ⟨fun y k s hk => ⟨fun t ht => ?_, fun y' h => ?_⟩, System.resetOf_numbered,
    fun _ _ _ hy h => System.step_numbered hy h⟩
  · exact ⟨_, (System.step_eq_next hk).mpr ⟨t, ht, rfl⟩, System.getElem?_set_unit hk t,
      fun j hj => List.getElem?_set_ne (Ne.symm hj)⟩
  · obtain ⟨t, ht, rfl⟩ := (System.step_eq_next hk).mp h
    exact ⟨t, ht, System.getElem?_set_unit hk t⟩

end Sys2Proof.Machine
end

section
/-! PROOFS. A reset event (70_reset_and_hazards.md R250, R251): the step it is, and what the host reads after it. -/

namespace Sys2Proof.Machine

/-- The scheduler's reset choice steps before the host and the core, whatever the core is doing (R250). -/
theorem step_of_reset {s : State} (ht : s.turns.head? = some .reset) : step s = .next (applyReset s.popTurn) := by
  obtain ⟨hagent, -⟩ := schedulerPicksAnEnabledAgent s
  rw [step, hagent ht, agentStep]

/-- From every core that R44 allows after reset the host reads STATUS = 0 and the IV, whatever the unspecified elements
hold. -/
theorem regRead_of_afterReset {s : State} (h : s.core.AfterReset) :
    regRead .status s = 0 ∧ regRead .digest0 s = iv.a ∧ regRead .digest1 s = iv.b ∧ regRead .digest2 s = iv.c ∧
      regRead .digest3 s = iv.d := by
  obtain ⟨hh, -, hfill, -, hidle, hdone, herr, hcause, -⟩ := h
  have hdigest : ∀ r v, settledWord s r v = v := settledWord_of_idle hidle
  refine ⟨regRead_status_eq_zero hidle hfill hdone herr hcause, ?_, ?_, ?_, ?_⟩ <;> rw [regRead, hdigest, hh]

/-- Settles O42: the step is `applyReset`, which touches the core alone, and the core it leaves is one that R44
allows. -/
theorem resetFromAnyState : Obligations.ResetFromAnyState := by
  intro s ht
  obtain ⟨hreset, -⟩ := resetStateMeetsInvariant
  have hcore : (applyReset s.popTurn).core.AfterReset := hreset
  obtain ⟨hstatus, h0, h1, h2, h3⟩ := regRead_of_afterReset hcore
  obtain ⟨hh, hlen, hfill, hpend, hidle, hdone, herr, hcause, hdata⟩ := hcore
  exact ⟨_, step_of_reset ht, hh, hlen, hfill, hpend, hidle, hdone, herr, hcause, hdata, hstatus, h0, h1, h2, h3,
    rfl, rfl, rfl, rfl, rfl⟩

end Sys2Proof.Machine
end
